-- ==== Sys2Proof/Word.lean ====
section
/-! DEFINITION. The widths of the block's values (10_state.md R28, 30_encoding.md R61, R65). Values are unsigned bit vectors, bit 0
the least significant (00_scope.md R7). -/

namespace Sys2Proof

/-- The plaintext unit, 12 bits, no internal structure (R28). -/
abbrev DataWord := BitVec 12

/-- A codeword or a received word, 23 bits: data in bits 22:11, parity in bits 10:0 (R28, R40). -/
abbrev Word23 := BitVec 23

/-- An 11-bit value: a syndrome, the parity part of a codeword, or a row of `G` or `H` (R28). -/
abbrev Row11 := BitVec 11

/-- The request word `REQ[24:0]` (R60, R61). -/
abbrev ReqWord := BitVec 25

/-- The response word `RSP[27:0]` (R60, R65). -/
abbrev RspWord := BitVec 28

/-- An index in [0, 23) into a 23-bit word; position p is value bit `22 - p` (00_scope.md R9). -/
abbrev Position := Fin 23

/-- A set of error positions, written in ascending order (R28). -/
abbrev ErrorPattern := List Position

end Sys2Proof
end

