-- ==== Sys2Proof/Syntax.lean ====
section
/-! DEFINITION. The requests the block answers: one constructor per row of spec/opcode_table.json (30_encoding.md R62 to R64, R68). -/

namespace Sys2Proof

/-- A decoded request. -/
inductive Instr where
  /-- `ENCODE d`: `op` = 00, format E with `zero` = 0 (R63, R110). -/
  | encode (data : DataWord)
  /-- `SYNDROME r`: `op` = 01, format W (R64, R120). -/
  | syndrome (received : Word23)
  /-- `CORRECT r`: `op` = 10, format W (R64, R130). -/
  | correct (received : Word23)
  /-- `DECODE r`: `op` = 11, format W (R64, R150). -/
  | decode (received : Word23)
  /-- The table's fall-through row `ENCODE.invalid`: `op` = 00 with a set bit in `zero` (R68, R111). -/
  | encodeInvalid (zero : Row11) (data : DataWord)
deriving DecidableEq, Repr

end Sys2Proof
end

