-- ==== Sys2Proof/WellFormed.lean ====
section
/-! DEFINITION. Which terms of `Instr` stand for a request word. The field widths are in the types; one check is left. -/

namespace Sys2Proof

/-- An `ENCODE.invalid` request has a set bit in `REQ[22:12]`; with all of them clear the ENCODE row matches first (30_encoding.md R68). -/
def Instr.wellFormed : Instr → Bool
  | .encode _ => true
  | .syndrome _ => true
  | .correct _ => true
  | .decode _ => true
  | .encodeInvalid zero _ => zero != 0#11

end Sys2Proof
end

