-- ==== Sys2Proof/Decode.lean ====
section
/-! DEFINITION. The decoder of the 25-bit request word and the encoder, both from 30_encoding.md R61 to R64, R68, R69. -/

namespace Sys2Proof

/-- `REQ = req_op ‖ req_arg` (R61). -/
def joinRequest (op : BitVec 2) (arg : Word23) : ReqWord := op ++ arg

/-- The operand field of format E, `zero ‖ data` (R63). -/
def joinFormatE (zero : Row11) (data : DataWord) : Word23 := zero ++ data

/-- `op` = `REQ[24:23]` (R61). -/
def reqOpField (w : ReqWord) : BitVec 2 := w.extractLsb' 23 2

/-- `arg` = `REQ[22:0]` (R61, R64). -/
def reqArgField (w : ReqWord) : Word23 := w.extractLsb' 0 23

/-- `zero` = `REQ[22:12]` of format E (R63). -/
def reqZeroField (w : ReqWord) : Row11 := w.extractLsb' 12 11

/-- `data` = `REQ[11:0]` of format E (R63, R67). -/
def reqDataField (w : ReqWord) : DataWord := w.extractLsb' 0 12

/-- A request with `op` = 00: an ENCODE, or the table's fall-through row when `zero` is not all clear (R68). -/
def decodeFormatE (zero : Row11) (data : DataWord) : Instr :=
  if zero = 0#11 then .encode data else .encodeInvalid zero data

/-- The request that a word stands for. All four values of `op` are used (R62), so every word decodes. -/
def decodeRequest (w : ReqWord) : Instr :=
  if reqOpField w = 0b00#2 then decodeFormatE (reqZeroField w) (reqDataField w)
  else if reqOpField w = 0b01#2 then .syndrome (reqArgField w)
  else if reqOpField w = 0b10#2 then .correct (reqArgField w)
  else .decode (reqArgField w)

/-- The opcode map (R62). -/
def Instr.opcode : Instr → BitVec 2
  | .encode _ => 0b00#2
  | .syndrome _ => 0b01#2
  | .correct _ => 0b10#2
  | .decode _ => 0b11#2
  | .encodeInvalid _ _ => 0b00#2

/-- The 23-bit operand field: format E is `zero ‖ data` (R63), format W the received word (R64). -/
def Instr.operandField : Instr → Word23
  | .encode data => joinFormatE 0#11 data
  | .syndrome received => received
  | .correct received => received
  | .decode received => received
  | .encodeInvalid zero data => joinFormatE zero data

/-- The request word of an instruction: `REQ = req_op ‖ req_arg` (R61). -/
def encodeRequest (i : Instr) : ReqWord := joinRequest i.opcode i.operandField

/-- Why a number is no request word. -/
inductive DecodeReject where
  /-- A bit above `REQ[24]` is set: the request is one 25-bit word (R60, R69). Safe: no such request can be presented. -/
  | widerThanRequest
deriving DecidableEq, Repr

/-- The request word that the low `nbits` bits of a number stand for, if it has no bit above `REQ[24]` (R60, R69). -/
def requestOfNumber (nbits w : Nat) : Except DecodeReject ReqWord :=
  if w % 2 ^ nbits < 2 ^ 25 then .ok (BitVec.ofNat 25 (w % 2 ^ nbits)) else .error .widerThanRequest

/-- The decoder on numbers: total, refusing by name what is no request word. -/
def decodeNumber (nbits w : Nat) : Except DecodeReject Instr :=
  (requestOfNumber nbits w).map decodeRequest

/-- The instruction the decoder reads from a row's word (bit 0 the least significant, as in spec/opcode_table.json). -/
def decodeTableWord (nbits w : Nat) : Option Instr := (decodeNumber nbits w).toOption

/-- The request port's 25 wires (R29) carry the low 25 bits of what is put on them. -/
def portWord (nbits w : Nat) : ReqWord := BitVec.ofNat 25 (w % 2 ^ nbits)

end Sys2Proof
end

