-- ==== Sys2Proof/Config.lean ====
section
/-! DEFINITION. What an implementation of the block fixes: the matrix `G` (00_scope.md R6, decision D1), and the values the spec
leaves unspecified (30_encoding.md R66, row U3). -/

namespace Sys2Proof

/-- The generator-parity matrix `G`: 12 rows of 11 bits, row j for data bit j (40_matrix_tables.md R90). -/
abbrev GenMatrix := Vector Row11 12

/-- The configuration of the block. `G` is the one open parameter (R6); `H` is defined from it (R92) and is no second parameter. -/
structure Config where
  G : GenMatrix
deriving DecidableEq, Repr

/-! The response fields that are unspecified when `InvalidWidth` is raised (R66, R111, U3: `any value`). FREE VALUES: opaque, so no
proof can see one. They are applied to `G` and the operand, because a response depends on the request and on `G` alone
(R12, R46 (a)); log 4. -/

/-- `rsp_value` of an InvalidWidth response: a free value (log 4). -/
opaque Config.unspecifiedValue : GenMatrix → Word23 → Word23

/-- `rsp_flipped` of an InvalidWidth response: a free value (log 4). -/
opaque Config.unspecifiedFlipped : GenMatrix → Word23 → BitVec 2

/-- `rsp_corrected` of an InvalidWidth response: a free value (log 4). -/
opaque Config.unspecifiedCorrected : GenMatrix → Word23 → Bool

/-- `rsp_uncorrectable` of an InvalidWidth response: a free value (log 4). -/
opaque Config.unspecifiedUncorrectable : GenMatrix → Word23 → Bool

end Sys2Proof
end

