-- ==== Sys2Proof/Machine/Matrices.lean ====
section
/-! DEFINITION. The constant tables: `H` from `G` (40_matrix_tables.md R92) and the reference value `G_REF` (R99). -/

namespace Sys2Proof.Machine

/-- The unit vector `e_i`, whose only set column is column i: `1 << (10 - i)` (R92). -/
def unitRow (i : Fin 11) : Row11 := 1#11 <<< (10 - i.val)

/-- Row p of the parity-check matrix: `G[p]` for the data positions, `e_i` for position `12 + i` (R92). -/
def hRow (G : GenMatrix) (p : Position) : Row11 :=
  if h : p.val < 12 then G[p.val] else 1#11 <<< (22 - p.val)

/-- `G_REF`, the spec's reference value of `G`, from general knowledge (R99, GK1). PRESUMED, log 2: nothing says that the repository
uses this matrix. -/
def gRef : GenMatrix :=
  #v[0x63A, 0x31D, 0x7B4, 0x3DA, 0x1ED, 0x6CC, 0x366, 0x1B3, 0x6E3, 0x54B, 0x49F, 0x475]

/-- Multiplication by x modulo `g(x) = x^11 + x^10 + x^6 + x^5 + x^4 + x^2 + 1` (`0xC75`), on 11-bit values (R99). -/
def mulXModG (v : Row11) : Row11 := if v.getLsbD 10 then (v <<< 1) ^^^ 0x475#11 else v <<< 1

/-- `x^n mod g(x)` as an 11-bit value: where R99 takes the rows of `G_REF` from. Nothing in the machine reads it. -/
def xPowModG : Nat → Row11
  | 0 => 1#11
  | n + 1 => mulXModG (xPowModG n)

/-- The configuration with `G = G_REF` (log 2). -/
def refConfig : Config := { G := gRef }

end Sys2Proof.Machine
end

