-- ==== Sys2Proof/Machine/State.lean ====
section
/-! DEFINITION. The machine's state. The block keeps nothing between transactions (10_state.md R20 to R27): State is the request
on its ports (R29), its configuration, which no step changes (R23, R91; log 1), and, for the host's interface, the response of the last
transaction (log 6). The response ports themselves are wires and stand in Machine/Ports.lean. -/

namespace Sys2Proof.Machine

/-- The fields of a response, one for each response port (10_state.md R29, 30_encoding.md R65). -/
structure Response where
  /-- `rsp_invalid_width`, `RSP[27]`. -/
  invalidWidth : Bool
  /-- `rsp_uncorrectable`, `RSP[26]`. -/
  uncorrectable : Bool
  /-- `rsp_corrected`, `RSP[25]`. -/
  corrected : Bool
  /-- `rsp_flipped`, `RSP[24:23]`. -/
  flipped : BitVec 2
  /-- `rsp_value`, `RSP[22:0]`. -/
  value : Word23
deriving DecidableEq, Repr

/-- The block between two steps. -/
structure State where
  /-- `G` (R6, R90); the model's argument, carried here because `Host.Core.step` takes a state alone (log 1). -/
  config : Config
  /-- `req_op` (R29). -/
  reqOp : BitVec 2
  /-- `req_arg` (R29). -/
  reqArg : Word23
  /-- The response of the last transaction (30_encoding.md R60), as it stood on the response ports; the model's own field (log 6). -/
  rsp : Response
deriving DecidableEq, Repr

/-- Reasons to stop with a fault: none. An error outcome is a field of the response (60_exceptions.md R160, R166), and the block
never stops or halts (70_reset_and_hazards.md R197). Safe and exact (log 10). -/
inductive Fault where
deriving DecidableEq, Repr

/-- Reasons to answer nothing. -/
inductive Refusal where
  /-- Raised by `exec` for an instruction that has no meaning yet, by its mnemonic. Safe. No arm of this model raises it (log 10). -/
  | notModelled (mnemonic : String)
deriving DecidableEq, Repr

/-- The block right after reset, built with configuration `c`: nothing to reset (R30, R190). The request port is taken to hold zeros
(DESIGN CHOICE, log 5), which is `ENCODE 0x000`; the response ports then show that request's response, all zero for every `G`
(R30, R110), and `rsp` starts as that (log 6). -/
def State.resetWith (c : Config) : State :=
  { config := c
    reqOp := 0#2
    reqArg := 0#23
    rsp := { invalidWidth := false, uncorrectable := false, corrected := false, flipped := 0#2, value := 0#23 } }

/-- The machine right after reset, with the reference configuration (log 2, log 5). -/
def State.reset : State := State.resetWith refConfig

end Sys2Proof.Machine
end

