-- ==== Sys2Proof/Machine/Flags.lean ====
section
/-! DEFINITION. The flag fields of a response and its packing into a word (30_encoding.md R65, R66; 44_decoder.md R151). -/

namespace Sys2Proof.Machine

/-- `corrected = (flipped >= 1)` (R151, decision D6; log 14). -/
def correctedFlag (flipped : BitVec 2) : Bool := decide (1 ≤ flipped.toNat)

/-- A response that reports no error and flips nothing: ENCODE and SYNDROME (R66). -/
def plainResponse (value : Word23) : Response :=
  { invalidWidth := false, uncorrectable := false, corrected := false, flipped := 0#2, value := value }

/-- A response of the search: CORRECT and DECODE (R66). -/
def searchResponse (value : Word23) (flipped : BitVec 2) (uncorrectable : Bool) : Response :=
  { invalidWidth := false, uncorrectable := uncorrectable, corrected := correctedFlag flipped, flipped := flipped, value := value }

/-- The response of `raise InvalidWidth(arg)`: `invalid_width` = 1, every other field unspecified (R66, R111, R161; log 3, log 4). -/
def invalidWidthResponse (G : GenMatrix) (arg : Word23) : Response :=
  { invalidWidth := true
    uncorrectable := Config.unspecifiedUncorrectable G arg
    corrected := Config.unspecifiedCorrected G arg
    flipped := Config.unspecifiedFlipped G arg
    value := Config.unspecifiedValue G arg }

/-- `RSP = invalid_width ‖ uncorrectable ‖ corrected ‖ flipped ‖ value` (R65). -/
def Response.word (r : Response) : RspWord :=
  BitVec.ofBool r.invalidWidth ++ (BitVec.ofBool r.uncorrectable ++ (BitVec.ofBool r.corrected ++ (r.flipped ++ r.value)))

/-- What became of a transaction (60_exceptions.md R163). -/
inductive TransactionOutcome where
  /-- A success: both error bits zero. -/
  | ok
  /-- `InvalidWidth` (R161). -/
  | invalidWidth
  /-- `Uncorrectable` (R162). -/
  | uncorrectable
deriving DecidableEq, Repr

/-- The outcome a response reports (R163). `uncorrectable` is read only when `invalid_width` is 0, since it is unspecified otherwise. -/
def Response.outcome (r : Response) : TransactionOutcome :=
  if r.invalidWidth then .invalidWidth else if r.uncorrectable then .uncorrectable else .ok

end Sys2Proof.Machine
end

