-- ==== Sys2Proof/Machine/Operands.lean ====
section
/-! DEFINITION. How a value's bits are named and taken apart: position and bit numbering (00_scope.md R9, R10), the primitives of
R11, and the fields of a 23-bit word (20_memory.md R40, R41). The numbering is the spec's decision D2 (log 7). -/

namespace Sys2Proof.Machine

/-- Data bit j of a data word is `d[11 - j]` (R10). -/
def dataBit (d : DataWord) (j : Fin 12) : Bool := d.getLsbD (11 - j.val)

/-- Parity bit, syndrome bit or matrix column i of an 11-bit value is bit `10 - i` (R10). -/
def columnBit (row : Row11) (i : Fin 11) : Bool := row.getLsbD (10 - i.val)

/-- `pos(w, p)`: position p of a 23-bit word is `w[22 - p]` (R9). -/
def positionBit (w : Word23) (p : Position) : Bool := w.getLsbD (22 - p.val)

/-- The word with only position p set, `1 << (22 - p)` (R9). -/
def positionMask (p : Position) : Word23 := 1#23 <<< (22 - p.val)

/-- `flip(w, p)` (R9). -/
def flipPosition (w : Word23) (p : Position) : Word23 := w ^^^ positionMask p

/-- `xor_reduce`, 0 for the empty collection (R11). -/
def xorReduce {n : Nat} : List (BitVec n) → BitVec n
  | [] => 0#n
  | v :: vs => v ^^^ xorReduce vs

/-- `popcount(v)`, the number of set bits (R11). -/
def popcount {n : Nat} (v : BitVec n) : Nat := (List.finRange n).countP fun k => v.getLsbD k.val

/-- A row taken when its bit is set: the AND of the GF(2) product (R8). -/
def selectRow (bit : Bool) (row : Row11) : Row11 := if bit then row else 0#11

/-- `d ‖ parity`: data in bits 22:11, parity in bits 10:0 (R40, 41_encoder.md R110). -/
def joinFields (d : DataWord) (row : Row11) : Word23 := d ++ row

/-- The data part of a 23-bit word, `w[22:11]` (R40). -/
def dataField (w : Word23) : DataWord := w.extractLsb' 11 12

/-- The parity part of a 23-bit word, `w[10:0]` (R40, R41). -/
def parityField (w : Word23) : Row11 := w.extractLsb' 0 11

/-- `zext_23` (R11): results are right-aligned, the bits above them zero (20_memory.md R42, 30_encoding.md R67). -/
def zext23 {n : Nat} (v : BitVec n) : Word23 := v.setWidth 23

/-- An error pattern as a 23-bit mask: the XOR of `1 << (22 - p)` over its positions (10_state.md R28). -/
def patternMask (P : ErrorPattern) : Word23 := xorReduce (P.map positionMask)

/-- The positions 0 to 22, ascending (R9, R11). -/
def positions : List Position := List.finRange 23

/-- The positions above i, ascending: the inner loops `j in (i+1)..22` of 43_error_search.md R130. -/
def positionsAfter (i : Position) : List Position := positions.filter fun j => i < j

end Sys2Proof.Machine
end

