-- ==== Sys2Proof/Machine/Codec.lean ====
section
/-! DEFINITION. The GF(2) products: the encoder's (41_encoder.md R110) and the syndrome's (42_syndrome.md R120), and what
40_matrix_tables.md says of `G`. Each is defined for every `G`. -/

namespace Sys2Proof.Machine

/-- The parity loop of R110: the XOR of the rows `G[j]` whose data bit j is set. -/
def parity (G : GenMatrix) (d : DataWord) : Row11 :=
  xorReduce ((List.finRange 12).map fun j => selectRow (dataBit d j) G[j])

/-- `ENCODE(d) = d ‖ parity` (R110). -/
def encodeWord (G : GenMatrix) (d : DataWord) : Word23 := joinFields d (parity G d)

/-- `SYNDROME(r)`: the XOR of the rows `H[p]` whose position p is set (R120). -/
def syndromeOf (G : GenMatrix) (r : Word23) : Row11 :=
  xorReduce (positions.map fun p => selectRow (positionBit r p) (hRow G p))

/-- The XOR of the rows of `H` at an error pattern's positions (R96). -/
def patternSyndrome (G : GenMatrix) (P : ErrorPattern) : Row11 := xorReduce (P.map (hRow G))

/-- Valid codewords are the images of data words (10_state.md R31). -/
def isCodeword (G : GenMatrix) (w : Word23) : Bool := w == encodeWord G (dataField w)

/-- `WF_G`: every nonzero valid codeword has at least 7 set bits (R94), by 4095 evaluations. -/
def wfG (G : GenMatrix) : Bool :=
  (List.range 4095).all fun n => 7 ≤ popcount (encodeWord G (BitVec.ofNat 12 (n + 1)))

end Sys2Proof.Machine
end

