-- ==== Sys2Proof/Machine/Search.lean ====
section
/-! DEFINITION. The error-pattern search (43_error_search.md R130 to R136): the reference semantics, by brute force (R141, D11;
log 9). -/

namespace Sys2Proof.Machine

/-- Depth 1: `p = 0, 1, ..., 22` (R132). -/
def candidates1 : List ErrorPattern := positions.map fun p => [p]

/-- Depth 2: the pairs `i < j` in lexicographic order (R133). -/
def candidates2 : List ErrorPattern := positions.flatMap fun i => (positionsAfter i).map fun j => [i, j]

/-- Depth 3: the triples `i < j < k` in lexicographic order (R134). -/
def candidates3 : List ErrorPattern :=
  positions.flatMap fun i => (positionsAfter i).flatMap fun j => (positionsAfter j).map fun k => [i, j, k]

/-- The first candidate whose rows of `H` XOR to `S` (R132 to R134). -/
def firstMatch (G : GenMatrix) (S : Row11) (candidates : List ErrorPattern) : Option ErrorPattern :=
  candidates.find? fun P => patternSyndrome G P == S

/-- What the search answers. `pattern` is no response field; the spec names it for other rules to speak of (R130). -/
structure SearchResult where
  value : Word23
  flipped : BitVec 2
  uncorrectable : Bool
  pattern : ErrorPattern
deriving DecidableEq, Repr

/-- A match: flip the pattern's positions, one after another (R130, states 2 to 4). -/
def flippedResult (r : Word23) (P : ErrorPattern) : SearchResult :=
  { value := P.foldl flipPosition r, flipped := BitVec.ofNat 2 P.length, uncorrectable := false, pattern := P }

/-- State 1: the received word unchanged, nothing flipped (R131). -/
def unchangedResult (r : Word23) : SearchResult :=
  { value := r, flipped := 0#2, uncorrectable := false, pattern := [] }

/-- State 5, `raise Uncorrectable(r)`: the received word unchanged, reported (R136, R162, D7; log 14). -/
def uncorrectableResult (r : Word23) : SearchResult :=
  { value := r, flipped := 0#2, uncorrectable := true, pattern := [] }

/-- The first pattern of depth 1, else of depth 2, else of depth 3: a depth is entered only after the one before it has failed (R130). -/
def searchPattern (G : GenMatrix) (S : Row11) : Option ErrorPattern :=
  match firstMatch G S candidates1 with
  | some P => some P
  | none =>
    match firstMatch G S candidates2 with
    | some P => some P
    | none => firstMatch G S candidates3

/-- `CORRECT(r)` (R130): the states of the search in order. -/
def correctWord (G : GenMatrix) (r : Word23) : SearchResult :=
  if syndromeOf G r = 0#11 then unchangedResult r
  else
    match searchPattern G (syndromeOf G r) with
    | some P => flippedResult r P
    | none => uncorrectableResult r

end Sys2Proof.Machine
end

