-- ==== Sys2Proof/Machine/Ops.lean ====
section
/-! DEFINITION. The named operations on the state: what gives a transaction its response, what presents a request, and the two error
outcomes. The block has no registers, no memory and no trap entry or return (10_state.md R20 to R23, 60_exceptions.md R166, R167), so
raising an outcome is a response and nothing else. -/

namespace Sys2Proof.Machine

/-- End the transaction with a response, whole and at once (R43, R60): the one write of a step. -/
def respond (s : State) (r : Response) : Host.Outcome State Fault Refusal := .next { s with rsp := r }

/-- `raise InvalidWidth(arg)`: reported in the response, no codeword, nothing else happens (41_encoder.md R111, 60_exceptions.md R161,
R166; log 3). -/
def raiseInvalidWidth (s : State) (arg : Word23) : Host.Outcome State Fault Refusal :=
  respond s (invalidWidthResponse s.config.G arg)

/-- The response of a search with the operation's own `value` field (30_encoding.md R66); an `Uncorrectable` outcome is one of its
fields (60_exceptions.md R162). -/
def searchResultResponse (value : Word23) (res : SearchResult) : Response :=
  searchResponse value res.flipped res.uncorrectable

/-- The request word on the ports: `REQ = req_op ‖ req_arg` (30_encoding.md R61). -/
def State.request (s : State) : ReqWord := joinRequest s.reqOp s.reqArg

/-- The host presents a request (60_exceptions.md R175): the request ports change, and with them at once the wires of the response port
(`State.rspPorts`, Machine/Ports.lean); no other field does. -/
def State.present (s : State) (w : ReqWord) : State :=
  { s with reqOp := reqOpField w, reqArg := reqArgField w }

end Sys2Proof.Machine
end

