-- ==== Sys2Proof/Machine/EncoderUnit.lean ====
section
/-! DEFINITION. The encoder unit, `golay_23_12_encoder` (41_encoder.md). -/

namespace Sys2Proof.Machine

/-- The response of `ENCODE d` (R110): the codeword; no outcome is raised. -/
def encodeResponse (G : GenMatrix) (data : DataWord) : Response := plainResponse (encodeWord G data)

/-- `ENCODE d` (R110). -/
def execEncode (data : DataWord) (s : State) : Host.Outcome State Fault Refusal := respond s (encodeResponse s.config.G data)

/-- `ENCODE` with a too-wide operand (R111): `raise InvalidWidth(REQ[22:0])`; the operand is not masked. -/
def execEncodeInvalid (zero : Row11) (data : DataWord) (s : State) : Host.Outcome State Fault Refusal :=
  raiseInvalidWidth s (joinFormatE zero data)

end Sys2Proof.Machine
end

