-- ==== Sys2Proof/Machine/SyndromeDecoderUnit.lean ====
section
/-! DEFINITION. The syndrome-decoder unit, `golay_23_12_syndrome_decoder` (42_syndrome.md, 43_error_search.md, 44_decoder.md). -/

namespace Sys2Proof.Machine

/-- The response of `SYNDROME r` (R120): the zero-extended syndrome; a nonzero one is a result, not an error. -/
def syndromeResponse (G : GenMatrix) (received : Word23) : Response := plainResponse (zext23 (syndromeOf G received))

/-- The response of `CORRECT r` (R130): the corrected word with the search's flags. -/
def correctResponse (G : GenMatrix) (received : Word23) : Response :=
  searchResultResponse (correctWord G received).value (correctWord G received)

/-- The response of `DECODE r` (R150): the 12 leading bits of CORRECT's word, with CORRECT's flags. -/
def decodeResponse (G : GenMatrix) (received : Word23) : Response :=
  searchResultResponse (zext23 (dataField (correctWord G received).value)) (correctWord G received)

/-- `SYNDROME r` (R120). -/
def execSyndrome (received : Word23) (s : State) : Host.Outcome State Fault Refusal :=
  respond s (syndromeResponse s.config.G received)

/-- `CORRECT r` (R130). -/
def execCorrect (received : Word23) (s : State) : Host.Outcome State Fault Refusal :=
  respond s (correctResponse s.config.G received)

/-- `DECODE r` (R150). -/
def execDecode (received : Word23) (s : State) : Host.Outcome State Fault Refusal :=
  respond s (decodeResponse s.config.G received)

end Sys2Proof.Machine
end

