-- ==== Sys2Proof/Machine/Dispatch.lean ====
section
/-! DEFINITION. One arm per row of spec/opcode_table.json. -/

namespace Sys2Proof.Machine

def exec (i : Instr) (s : State) : Host.Outcome State Fault Refusal :=
  match i with
  | .encode data => Sys2Proof.Machine.execEncode data s
  | .syndrome received => Sys2Proof.Machine.execSyndrome received s
  | .correct received => Sys2Proof.Machine.execCorrect received s
  | .decode received => Sys2Proof.Machine.execDecode received s
  | .encodeInvalid zero data => Sys2Proof.Machine.execEncodeInvalid zero data s

end Sys2Proof.Machine
end

