-- ==== Sys2Proof/Machine/Ports.lean ====
section
/-! DEFINITION. The response ports (10_state.md R29): plain wires, at every moment a combinational function of the request ports and of
`G`, and no field of the state. A step takes their value as the response of its transaction. -/

namespace Sys2Proof.Machine

/-- `response = f(G, request)` (00_scope.md R12). ENCODE goes to the encoder unit, the other three operations to the syndrome-decoder
unit (R29). -/
def responseTo (G : GenMatrix) : Instr → Response
  | .encode data => encodeResponse G data
  | .syndrome received => syndromeResponse G received
  | .correct received => correctResponse G received
  | .decode received => decodeResponse G received
  | .encodeInvalid zero data => invalidWidthResponse G (joinFormatE zero data)

/-- What the five response ports show (R29), after reset as at every other moment (R30). -/
def State.rspPorts (s : State) : Response := responseTo s.config.G (decodeRequest s.request)

/-- The response word on the wires, `RSP[27:0]` (30_encoding.md R65). -/
def State.rspWord (s : State) : RspWord := s.rspPorts.word

end Sys2Proof.Machine
end

