-- ==== Sys2Proof/Machine/Step.lean ====
section
/-! DEFINITION. One step is one transaction (30_encoding.md R60, 70_reset_and_hazards.md R197): the request on the ports is decoded and
answered. There is no program counter to advance (10_state.md R22). -/

namespace Sys2Proof.Machine

def step (s : State) : Host.Outcome State Fault Refusal := exec (decodeRequest s.request) s

/-- The host presents the row's word on the request port (60_exceptions.md R175), so that the next step is its transaction (log 12). -/
def State.withFetchWord (s : State) (nbits w : Nat) : State := s.present (portWord nbits w)

end Sys2Proof.Machine
end

