-- ==== Sys2Proof/Machine/CodeProperties.lean ====
section
/-! DEFINITION. What 40_matrix_tables.md and 70_reset_and_hazards.md ask to be checked of `G` and `H` at design time (R93, R94, R101,
R192), and what R98 counts. No operation of the block reads any of it. -/

namespace Sys2Proof.Machine

/-- Matrix self-consistency: the last 11 rows of `H` are the identity, `H[12 + i] == e_i` (R93, R192). -/
def identityBlock (G : GenMatrix) : Bool := (List.finRange 11).all fun i => hRow G (Fin.natAdd 12 i) == unitRow i

/-- The two design-time checks of R192. -/
def designChecks (G : GenMatrix) : Bool := identityBlock G && wfG G

/-- The patterns of weight 0, 1, 2 and 3 (R98). -/
def allPatterns : List ErrorPattern := [] :: (candidates1 ++ candidates2 ++ candidates3)

/-- The patterns of weight at most 3 with a given syndrome. -/
def patternsFor (G : GenMatrix) (S : Row11) : List ErrorPattern := allPatterns.filter fun P => patternSyndrome G P == S

/-- Perfection: every 11-bit value is the syndrome of exactly one pattern of weight at most 3 (R98). -/
def perfectCode (G : GenMatrix) : Bool := (List.range 2048).all fun n => (patternsFor G (BitVec.ofNat 11 n)).length == 1

/-- The patterns of weight at most 3 have pairwise distinct syndromes (R97; R101 enumerates them for `G_REF`). -/
def distinctSyndromes (G : GenMatrix) : Bool := decide (allPatterns.map (patternSyndrome G)).Nodup

/-- The valid codewords, the images of the 4096 data words (10_state.md R31). -/
def codewords (G : GenMatrix) : List Word23 := (List.range 4096).map fun n => encodeWord G (BitVec.ofNat 12 n)

/-- The valid codewords within distance 3 of a word (R98). -/
def codewordsNear (G : GenMatrix) (r : Word23) : List Word23 := (codewords G).filter fun c => popcount (c ^^^ r) ≤ 3

/-- How many codewords have weight 0, 1, ..., 23 (R101). -/
def weightDistribution (G : GenMatrix) : List Nat :=
  (List.range 24).map fun w => (codewords G).countP fun c => popcount c == w

end Sys2Proof.Machine
end

