-- ==== Sys2Proof/Machine/Transactions.lean ====
section
/-! DEFINITION. A run as the host sees it: a sequence of transactions (30_encoding.md R60, R70; 60_exceptions.md R175), each a request
presented, one step, and the response read. -/

namespace Sys2Proof.Machine

/-- Present each request in turn and collect the responses; a stop of the machine would end the run (there is none, R197). -/
def transactions : List ReqWord → State → Host.Outcome (State × List Response) Fault Refusal
  | [], s => .next (s, [])
  | w :: ws, s =>
    match step (s.present w) with
    | .fault f => .fault f
    | .refused r => .refused r
    | .next t =>
      match transactions ws t with
      | .fault f => .fault f
      | .refused r => .refused r
      | .next (u, rs) => .next (u, t.rsp :: rs)

end Sys2Proof.Machine
end

