-- ==== Sys2Proof/Safety.lean ====
section
/-! DEFINITION. The terms that claims about the block use: well-formed patterns and words, what the host may read, the invariant of a
block with a well-formed `G`, and the optional lookup table that the spec allows an implementation (43_error_search.md R141). -/

namespace Sys2Proof.Machine

/-- An error pattern of weight at most 3: distinct positions in ascending order (10_state.md R28). -/
abbrev isPattern (P : ErrorPattern) : Prop := P.Pairwise (· < ·) ∧ P.length ≤ 3

/-- The number of positions in which two words differ (00_scope.md, glossary: Hamming distance). -/
def distance (a b : Word23) : Nat := popcount (a ^^^ b)

/-- The host may use the fields of a response only when `invalid_width` is 0 (60_exceptions.md R178). -/
def Response.usable (r : Response) : Bool := !r.invalidWidth

/-- A run is safe for the host when every response of it may be used and none reports an uncorrectable word (R160, R178). -/
def safeRun (rs : List Response) : Bool := rs.all fun r => r.outcome == .ok

/-- What a usable response of a block with a well-formed `G` says (30_encoding.md R65, 43_error_search.md R139): no `Uncorrectable`
outcome, and `corrected` exactly when `flipped` is 1, 2 or 3. -/
def Response.consistent (r : Response) : Bool :=
  r.invalidWidth || (!r.uncorrectable && (r.corrected == (r.flipped != 0#2)))

/-- The invariant of a well-formed block: `G` satisfies `WF_G` (40_matrix_tables.md R94), and the last response is consistent. -/
def State.inv (s : State) : Bool := wfG s.config.G && s.rsp.consistent

/-! The lookup table of R141. It is no part of the machine (10_state.md R27, D11); it is here so that its equality with the search can
be stated. -/

/-- Insert a pattern under its syndrome, keeping the first pattern for each syndrome (R141). -/
def insertFirst (G : GenMatrix) (table : List (Row11 × ErrorPattern)) (P : ErrorPattern) : List (Row11 × ErrorPattern) :=
  if table.any fun entry => entry.1 == patternSyndrome G P then table else table ++ [(patternSyndrome G P, P)]

/-- The table built by inserting the patterns in the search's order (R141). -/
def syndromeTable (G : GenMatrix) : List (Row11 × ErrorPattern) :=
  (candidates1 ++ candidates2 ++ candidates3).foldl (insertFirst G) []

/-- `LUT(S)` (R141). -/
def tablePattern (G : GenMatrix) (S : Row11) : Option ErrorPattern := (syndromeTable G).lookup S

end Sys2Proof.Machine
end

