-- ==== Sys2Proof/Certificates/Slice0/Obligations.lean ====
section
/-! DEFINITION. The statements for the provers. A statement about every state `s` is a statement about every `G`, since `s.config.G` is
`G` (log 1). Where a rule of spec/ is marked `[derived: …]` or `[decision: …]` there, the statement is `derived` in OBLIGATIONS.json and
its docstring says so.
What a clause rests on beyond the spec's own words is named by its entry of the assumption log. -/

open Sys2Proof Sys2Proof.Machine

/-! ## Encoding -/

/-- 30_encoding.md, request layouts (the framing is the spec's decision D3): no bit of a well-formed request is lost by encoding it.
That `ENCODE.invalid` is among them is the model's choice (log 13). -/
def Obligations.DecodeInvertsEncode : Prop :=
  ∀ i : Instr, i.wellFormed = true → decodeRequest (encodeRequest i) = i

/-- 30_encoding.md, reserved and illegal encodings (decisions D3, D4): each of the 2^25 request words is the encoding of exactly one
well-formed term of `Instr`. That the words the spec calls illegal stand for such a term, under a constructor of their own, is the
model's choice (log 13). -/
def Obligations.EveryWordIsOneRequest : Prop :=
  ∀ w : ReqWord, (decodeRequest w).wellFormed = true ∧ encodeRequest (decodeRequest w) = w ∧
    ∀ i : Instr, i.wellFormed = true → encodeRequest i = w → i = decodeRequest w

/-- spec/opcode_table.json, the `mask` and `match` of each row, tried in order (decision D3). -/
def Obligations.DecoderFollowsTheTableRows : Prop :=
  ∀ w : ReqWord,
    (w &&& 0x1FFF000#25 = 0x0000000#25 → decodeRequest w = .encode (w.extractLsb' 0 12)) ∧
    (w &&& 0x1800000#25 = 0x0800000#25 → decodeRequest w = .syndrome (w.extractLsb' 0 23)) ∧
    (w &&& 0x1800000#25 = 0x1000000#25 → decodeRequest w = .correct (w.extractLsb' 0 23)) ∧
    (w &&& 0x1800000#25 = 0x1800000#25 → decodeRequest w = .decode (w.extractLsb' 0 23)) ∧
    (w &&& 0x1FFF000#25 ≠ 0x0000000#25 → w &&& 0x1800000#25 = 0x0000000#25 →
      decodeRequest w = .encodeInvalid (w.extractLsb' 12 11) (w.extractLsb' 0 12))

/-- Words written out bit by bit from the patterns of 30_encoding.md (formats E and W). -/
def Obligations.WrittenOutWordsDecode : Prop :=
  decodeRequest 0b00_00000000000_101010111100#25 = .encode 0xABC ∧
  decodeRequest 0b01_10101011110_000100011110#25 = .syndrome 0x55E11E ∧
  decodeRequest 0b10_10101011110_000100011111#25 = .correct 0x55E11F ∧
  decodeRequest 0b11_11110000000_000000000000#25 = .decode 0x780000 ∧
  decodeRequest 0b00_00000000001_101010111100#25 = .encodeInvalid 0x001 0xABC

/-- A number with a bit above `REQ[24]` is no request word; every other one decodes (log 12, the model's choice for numbers). -/
def Obligations.OnlyWiderNumbersAreNoRequest : Prop :=
  ∀ nbits w : Nat, decodeTableWord nbits w =
    if w % 2 ^ nbits < 2 ^ 25 then some (decodeRequest (BitVec.ofNat 25 (w % 2 ^ nbits))) else none

/-- 30_encoding.md, response word layout (decision D13): the five fields of `RSP[27:0]`. -/
def Obligations.ResponseWordFields : Prop :=
  ∀ r : Response,
    r.word.getLsbD 27 = r.invalidWidth ∧ r.word.getLsbD 26 = r.uncorrectable ∧ r.word.getLsbD 25 = r.corrected ∧
    r.word.extractLsb' 23 2 = r.flipped ∧ r.word.extractLsb' 0 23 = r.value

/-! ## The step and the host -/

/-- A transaction runs the request that stands on the ports, `REQ = req_op ‖ req_arg`, and nothing is added around it. -/
def Obligations.StepRunsTheRequestOnThePorts : Prop :=
  ∀ s : State, step s = exec (decodeRequest (s.reqOp ++ s.reqArg)) s

/-- The word a host presents is the very next transaction. That presenting one is what `withFetchWord` does, by number, is the model's
choice (log 12), and so is the last clause: the stored response is the last transaction's (log 6), while the response ports follow the
new request at once (`ResponsePortsFollowTheRequest`). -/
def Obligations.PresentedWordIsRunNext : Prop :=
  ∀ (s : State) (nbits w : Nat) (i : Instr), decodeTableWord nbits w = some i →
    step (s.withFetchWord nbits w) = exec i (s.withFetchWord nbits w) ∧
    (s.withFetchWord nbits w).config = s.config ∧ (s.withFetchWord nbits w).rsp = s.rsp

/-- 00_scope.md, `response = f(G, request)`: a transaction is a function of the request and of `G`, total and without effect on anything
but the response. That the unspecified fields of an `InvalidWidth` response are such a function too is the model's inference (log 4). -/
def Obligations.ResponseIsFunctionOfRequestAndG : Prop :=
  ∃ f : GenMatrix → ReqWord → Response, ∀ s : State,
    step s = .next { s with rsp := f s.config.G (s.reqOp ++ s.reqArg) }

/-- 10_state.md, ports and reset values (decisions D3, D10, D13): the response ports are at every moment one function of the request
ports and of `G`, the moment a request is presented and the time after reset among them, and a step takes what they show as the response
of its transaction. Of the unspecified fields of an `InvalidWidth` response this is the model's inference (log 4); that a response is
stored at all is the model's choice (log 6). -/
def Obligations.ResponsePortsFollowTheRequest : Prop :=
  ∃ f : GenMatrix → ReqWord → Response,
    (∀ s : State, s.rspPorts = f s.config.G (s.reqOp ++ s.reqArg)) ∧
    (∀ (s : State) (w : ReqWord), (s.present w).rspPorts = f s.config.G w) ∧
    (∀ (c : Config) (w : ReqWord), ((State.resetWith c).present w).rspPorts = f c.G w) ∧
    ∀ s : State, step s = .next { s with rsp := s.rspPorts }

/-- 20_memory.md, consistency model (decision D14): in a run of any requests in any order, each gets the response that it gets alone. For
the unspecified fields of the responses to too-wide ENCODE requests this is the model's inference (log 4). -/
def Obligations.RunsAnswerEachRequestAlone : Prop :=
  ∃ f : GenMatrix → ReqWord → Response,
    (∀ s : State, step s = .next { s with rsp := f s.config.G (s.reqOp ++ s.reqArg) }) ∧
    ∀ (ws : List ReqWord) (s : State), ∃ u : State,
      transactions ws s = .next (u, ws.map (f s.config.G)) ∧ u.config = s.config

/-- 60_exceptions.md, no trap return (an inference the spec marks as its own): after any operation, an `InvalidWidth` one included, the
next one is answered as it would have been. Where the next one is too wide, the equality of its unspecified fields is the model's
inference (log 4). -/
def Obligations.NoOperationAffectsTheNext : Prop :=
  ∀ (i j : Instr) (s t : State), exec j s = .next t →
    ∃ r : Response, exec i s = .next { s with rsp := r } ∧ exec i t = .next { t with rsp := r }

/-- 20_memory.md, widths and atomicity (decision D9): repeating a request gives the same response. That the state holds the last response,
so that nothing at all changes, is the model's choice (log 6), and that a repeated too-wide request gets equal unspecified fields is its
inference (log 4). -/
def Obligations.RepeatingARequestChangesNothing : Prop :=
  ∀ s t : State, step s = .next t → step t = .next t

/-- The frame of every operation: it completes, and it writes the response alone (log 6). That `ENCODE.invalid`
completes is log 3, and that its ill-formed terms do is log 13. -/
def Obligations.OperationsWriteTheResponseAlone : Prop :=
  ∀ (i : Instr) (s : State), ∃ t : State, exec i s = .next t ∧
    t.config = s.config ∧ t.reqOp = s.reqOp ∧ t.reqArg = s.reqArg

/-- Rule R91: no operation writes `G`, no port reaches it, reset does not touch it. -/
def Obligations.MatrixNeverChanges : Prop :=
  (∀ (i : Instr) (s t : State), exec i s = .next t → t.config.G = s.config.G) ∧
  (∀ s t : State, step s = .next t → t.config.G = s.config.G) ∧
  (∀ (s : State) (w : ReqWord), (s.present w).config.G = s.config.G) ∧
  (∀ s : State, (State.resetWith s.config).config.G = s.config.G)

/-! ## The operations, for every `G` -/

/-- ENCODE (41_encoder.md, pseudocode, bit by bit, response fields): it completes with the codeword, whose 12 leading bits are the
operand and whose parity bit i is the XOR over j of `d[11 - j] & G[j][i]`. -/
def Obligations.EncodeGivesTheCodeword : Prop :=
  ∀ (s : State) (d : DataWord),
    exec (.encode d) s = .next { s with rsp :=
      { invalidWidth := false, uncorrectable := false, corrected := false, flipped := 0#2, value := encodeWord s.config.G d } } ∧
    (encodeWord s.config.G d).extractLsb' 11 12 = d ∧
    ∀ i : Fin 11, (encodeWord s.config.G d).getLsbD (10 - i.val) =
      (List.finRange 12).foldl (fun acc j => acc ^^ (d.getLsbD (11 - j.val) && (s.config.G[j]).getLsbD (10 - i.val))) false

/-- 41_encoder.md, corner cases: 0 encodes to 0, and a data word with only data bit j set reads out row j of `G`. -/
def Obligations.EncodeReadsOutRows : Prop :=
  ∀ (s : State) (j : Fin 12),
    exec (.encode 0#12) s = .next { s with rsp :=
      { invalidWidth := false, uncorrectable := false, corrected := false, flipped := 0#2, value := 0#23 } } ∧
    exec (.encode (1#12 <<< (11 - j.val))) s = .next { s with rsp :=
      { invalidWidth := false, uncorrectable := false, corrected := false, flipped := 0#2,
        value := (1#23 <<< (22 - j.val)) ||| (s.config.G[j]).setWidth 23 } }

/-- ENCODE.invalid (41_encoder.md, too-wide operand; decisions D4, D5): the response has `invalid_width` = 1, nothing else of the block
changes, and no claim is made of the other fields. The spec calls the transaction faulted; that the machine answers a next state whose
response reports it is the model's choice (log 3), and so is the same answer for the ill-formed term with `zero` = 0, which no word
decodes to (log 13). -/
def Obligations.TooWideEncodeRaisesInvalidWidth : Prop :=
  ∀ (s : State) (zero : Row11) (data : DataWord), ∃ r : Response,
    exec (.encodeInvalid zero data) s = .next { s with rsp := r } ∧ r.invalidWidth = true

/-- 30_encoding.md and 60_exceptions.md, `InvalidWidth` (decisions D4, D5): the outcome arises exactly on `op` = 00 with a set bit in
`REQ[22:12]`. -/
def Obligations.InvalidWidthExactlyOnTooWideEncode : Prop :=
  ∀ s t : State, step s = .next t →
    (t.rsp.invalidWidth = true ↔ s.reqOp = 0b00#2 ∧ s.reqArg.extractLsb' 12 11 ≠ 0#11)

/-- SYNDROME (42_syndrome.md, pseudocode, bit by bit, response fields): it completes with the zero-extended syndrome, whose bit i is the
XOR over p of `r[22 - p] & H[p][i]`. -/
def Obligations.SyndromeGivesTheParityChecks : Prop :=
  ∀ (s : State) (r : Word23),
    exec (.syndrome r) s = .next { s with rsp :=
      { invalidWidth := false, uncorrectable := false, corrected := false, flipped := 0#2,
        value := (syndromeOf s.config.G r).setWidth 23 } } ∧
    ∀ i : Fin 11, (syndromeOf s.config.G r).getLsbD (10 - i.val) =
      (List.finRange 23).foldl
        (fun acc p => acc ^^ (r.getLsbD (22 - p.val) && (hRow s.config.G p).getLsbD (10 - i.val))) false

/-- Rule R92: `H` is `G` on the data positions and the identity on the parity positions. -/
def Obligations.ParityCheckMatrixFromG : Prop :=
  ∀ G : GenMatrix,
    (∀ (p : Fin 23) (j : Fin 12), p.val = j.val → hRow G p = G[j]) ∧
    (∀ (p : Fin 23) (i : Fin 11), p.val = 12 + i.val → hRow G p = 1#11 <<< (10 - i.val))

/-- 40_matrix_tables.md, matrix self-consistency (decision D15): the last 11 rows of `H` are the unit vectors `e_0` to `e_10`, which the
design-time check of 70_reset_and_hazards.md finds for every `G`; so `WF_G` is all that the two design-time checks leave to check. -/
def Obligations.MatrixSelfConsistency : Prop :=
  ∀ G : GenMatrix,
    (∀ i : Fin 11, hRow G (Fin.natAdd 12 i) = unitRow i) ∧ identityBlock G = true ∧ (designChecks G = true ↔ wfG G = true)

/-- 43_error_search.md, state 1 of the search: a zero syndrome returns the received word unchanged. The two outcome bits are those of the
pseudocode of CORRECT, and the bit `corrected` is the spec's decision D6 (log 14). -/
def Obligations.ZeroSyndromeReturnsTheWord : Prop :=
  ∀ (s : State) (r : Word23), syndromeOf s.config.G r = 0#11 →
    exec (.correct r) s = .next { s with rsp :=
      { invalidWidth := false, uncorrectable := false, corrected := false, flipped := 0#2, value := r } }

/-- 43_error_search.md, state 2: the least position whose row of `H` equals the syndrome is flipped; with a well-formed `G` it is the only
one. The outcome bits are those of the pseudocode of CORRECT, and the bit `corrected` is the spec's decision D6 (log 14). -/
def Obligations.DepthOneFlipsTheLeastMatch : Prop :=
  ∀ (s : State) (r : Word23) (p : Fin 23),
    syndromeOf s.config.G r ≠ 0#11 →
    hRow s.config.G p = syndromeOf s.config.G r →
    (∀ q : Fin 23, q < p → hRow s.config.G q ≠ syndromeOf s.config.G r) →
    exec (.correct r) s = .next { s with rsp :=
      { invalidWidth := false, uncorrectable := false, corrected := true, flipped := 1,
        value := r ^^^ (1#23 <<< (22 - p.val)) } } ∧
    (wfG s.config.G = true → ∀ q : Fin 23, hRow s.config.G q = syndromeOf s.config.G r → q = p)

/-- 43_error_search.md, state 3: when no position matches, the lexicographically first pair whose rows XOR to the syndrome is flipped. The
outcome bits are those of the pseudocode of CORRECT, and the bit `corrected` is the spec's decision D6 (log 14). -/
def Obligations.DepthTwoFlipsTheFirstPair : Prop :=
  ∀ (s : State) (r : Word23) (i j : Fin 23),
    syndromeOf s.config.G r ≠ 0#11 →
    (∀ p : Fin 23, hRow s.config.G p ≠ syndromeOf s.config.G r) →
    i < j → hRow s.config.G i ^^^ hRow s.config.G j = syndromeOf s.config.G r →
    (∀ a b : Fin 23, a < b → (a < i ∨ (a = i ∧ b < j)) →
      hRow s.config.G a ^^^ hRow s.config.G b ≠ syndromeOf s.config.G r) →
    exec (.correct r) s = .next { s with rsp :=
      { invalidWidth := false, uncorrectable := false, corrected := true, flipped := 2,
        value := r ^^^ (1#23 <<< (22 - i.val)) ^^^ (1#23 <<< (22 - j.val)) } }

/-- 43_error_search.md, state 4: when no position and no pair matches, the lexicographically first triple is flipped. The outcome bits are
those of the pseudocode of CORRECT, and the bit `corrected` is the spec's decision D6 (log 14). -/
def Obligations.DepthThreeFlipsTheFirstTriple : Prop :=
  ∀ (s : State) (r : Word23) (i j k : Fin 23),
    syndromeOf s.config.G r ≠ 0#11 →
    (∀ p : Fin 23, hRow s.config.G p ≠ syndromeOf s.config.G r) →
    (∀ a b : Fin 23, a < b → hRow s.config.G a ^^^ hRow s.config.G b ≠ syndromeOf s.config.G r) →
    i < j → j < k →
    hRow s.config.G i ^^^ hRow s.config.G j ^^^ hRow s.config.G k = syndromeOf s.config.G r →
    (∀ a b c : Fin 23, a < b → b < c → (a < i ∨ (a = i ∧ (b < j ∨ (b = j ∧ c < k)))) →
      hRow s.config.G a ^^^ hRow s.config.G b ^^^ hRow s.config.G c ≠ syndromeOf s.config.G r) →
    exec (.correct r) s = .next { s with rsp :=
      { invalidWidth := false, uncorrectable := false, corrected := true, flipped := 3,
        value := r ^^^ (1#23 <<< (22 - i.val)) ^^^ (1#23 <<< (22 - j.val)) ^^^ (1#23 <<< (22 - k.val)) } }

/-- 43_error_search.md, state 5 (decision D7): when no pattern of weight 1, 2 or 3 matches, the received word comes back unchanged with
`uncorrectable` = 1. -/
def Obligations.FailedSearchReportsUncorrectable : Prop :=
  ∀ (s : State) (r : Word23),
    syndromeOf s.config.G r ≠ 0#11 →
    (∀ p : Fin 23, hRow s.config.G p ≠ syndromeOf s.config.G r) →
    (∀ a b : Fin 23, a < b → hRow s.config.G a ^^^ hRow s.config.G b ≠ syndromeOf s.config.G r) →
    (∀ a b c : Fin 23, a < b → b < c →
      hRow s.config.G a ^^^ hRow s.config.G b ^^^ hRow s.config.G c ≠ syndromeOf s.config.G r) →
    exec (.correct r) s = .next { s with rsp :=
      { invalidWidth := false, uncorrectable := true, corrected := false, flipped := 0#2, value := r } }

/-- CORRECT (43_error_search.md, corner cases, and the consequence the spec derives): it completes for every word and every `G`; the
flag `corrected` is `flipped ≥ 1`; the word differs from the received one in `flipped` positions; without `Uncorrectable` it is a valid
codeword, with it it is the received word, which is none. The bit `corrected` and the cleared count of a failure are the spec's decisions
D6 and D7 (log 14). -/
def Obligations.CorrectGivesACodewordOrReports : Prop :=
  ∀ (s : State) (r : Word23), ∃ (v : Word23) (n : Nat) (u : Bool),
    exec (.correct r) s = .next { s with rsp :=
      { invalidWidth := false, uncorrectable := u, corrected := decide (1 ≤ n), flipped := BitVec.ofNat 2 n, value := v } } ∧
    n ≤ 3 ∧ popcount (v ^^^ r) = n ∧
    (u = false → syndromeOf s.config.G v = 0#11 ∧ v = encodeWord s.config.G (v.extractLsb' 11 12)) ∧
    (u = true → v = r ∧ n = 0 ∧ syndromeOf s.config.G v ≠ 0#11)

/-- DECODE (44_decoder.md, pseudocode, and the relation the spec derives): it completes with the 12 leading bits of CORRECT's word and
CORRECT's flags; the data is `r[22:11]` when the syndrome is zero or the outcome is `Uncorrectable`. -/
def Obligations.DecodeTakesTheLeadingBits : Prop :=
  ∀ (s : State) (r : Word23), ∃ R : Response,
    exec (.correct r) s = .next { s with rsp := R } ∧
    exec (.decode r) s = .next { s with rsp := { R with value := (R.value.extractLsb' 11 12).setWidth 23 } } ∧
    (syndromeOf s.config.G r = 0#11 ∨ R.uncorrectable = true → R.value.extractLsb' 11 12 = r.extractLsb' 11 12)

/-- 60_exceptions.md, `Uncorrectable` (the cleared fields are decision D7; the last clause is an inference the spec marks as its own,
43_error_search.md): it arises exactly on CORRECT and DECODE of a word with a nonzero syndrome that no XOR of one, two or three
distinct rows of `H` equals; then `value` is the received word (CORRECT) or its 12 leading bits (DECODE), `flipped` and `corrected` are
0; and a well-formed `G` never produces it. (`uncorrectable` is a defined field when `invalid_width` is 0, log 3.) -/
def Obligations.UncorrectableExactlyWhenNoPattern : Prop :=
  ∀ s t : State, step s = .next t → t.rsp.invalidWidth = false →
    (t.rsp.uncorrectable = true ↔
      (s.reqOp = 0b10#2 ∨ s.reqOp = 0b11#2) ∧ syndromeOf s.config.G s.reqArg ≠ 0#11 ∧
      (∀ a : Fin 23, hRow s.config.G a ≠ syndromeOf s.config.G s.reqArg) ∧
      (∀ a b : Fin 23, a ≠ b → hRow s.config.G a ^^^ hRow s.config.G b ≠ syndromeOf s.config.G s.reqArg) ∧
      (∀ a b c : Fin 23, a ≠ b → a ≠ c → b ≠ c →
        hRow s.config.G a ^^^ hRow s.config.G b ^^^ hRow s.config.G c ≠ syndromeOf s.config.G s.reqArg)) ∧
    (t.rsp.uncorrectable = true →
      t.rsp.flipped = 0#2 ∧ t.rsp.corrected = false ∧
      (s.reqOp = 0b10#2 → t.rsp.value = s.reqArg) ∧
      (s.reqOp = 0b11#2 → t.rsp.value = (s.reqArg.extractLsb' 11 12).setWidth 23) ∧
      wfG s.config.G = false)

/-- 44_decoder.md, the `corrected` flag (decision D6), on every operation with defined fields: it says that a bit was flipped, and an
`Uncorrectable` response flips none. -/
def Obligations.CorrectedSaysABitWasFlipped : Prop :=
  ∀ s t : State, step s = .next t → t.rsp.invalidWidth = false →
    (t.rsp.corrected = true ↔ 1 ≤ t.rsp.flipped.toNat) ∧ (t.rsp.uncorrectable = true → t.rsp.flipped = 0#2)

/-- 20_memory.md, alignment (decision D13): narrow results are right-aligned with zeros above them. -/
def Obligations.NarrowResultsAreZeroExtended : Prop :=
  ∀ s t : State, step s = .next t →
    (s.reqOp = 0b01#2 → t.rsp.value.extractLsb' 11 12 = 0#12) ∧ (s.reqOp = 0b11#2 → t.rsp.value.extractLsb' 12 11 = 0#11)

/-! ## Laws of the code, for every `G` -/

/-- 40_matrix_tables.md, linearity (an inference the spec marks as its own). -/
def Obligations.ProductsAreLinear : Prop :=
  ∀ G : GenMatrix,
    (∀ a b : DataWord, encodeWord G (a ^^^ b) = encodeWord G a ^^^ encodeWord G b) ∧
    (∀ u v : Word23, syndromeOf G (u ^^^ v) = syndromeOf G u ^^^ syndromeOf G v) ∧
    encodeWord G 0#12 = 0#23 ∧ syndromeOf G 0#23 = 0#11 ∧
    (∀ P : ErrorPattern, P.Pairwise (· < ·) → syndromeOf G (patternMask P) = xorReduce (P.map (hRow G))) ∧
    (∀ (d : DataWord) (e : Word23), syndromeOf G (encodeWord G d ^^^ e) = syndromeOf G e)

/-- 42_syndrome.md, closed form (an inference the spec marks as its own): the syndrome compares the received parity with the parity of
the received data. -/
def Obligations.SyndromeComparesParities : Prop :=
  ∀ (G : GenMatrix) (r : Word23),
    syndromeOf G r = r.extractLsb' 0 11 ^^^ (encodeWord G (r.extractLsb' 11 12)).extractLsb' 0 11

/-- 40_matrix_tables.md and 42_syndrome.md (an inference the spec marks as its own): the syndrome is zero exactly on the valid
codewords, the images of data words. -/
def Obligations.ZeroSyndromeExactlyOnCodewords : Prop :=
  ∀ (G : GenMatrix) (w : Word23),
    (syndromeOf G w = 0#11 ↔ w = encodeWord G (w.extractLsb' 11 12)) ∧
    (syndromeOf G w = 0#11 ↔ ∃ d : DataWord, w = encodeWord G d)

/-- 41_encoder.md, laws (a) to (f) of ENCODE (an inference the spec marks as its own). -/
def Obligations.EncoderLaws : Prop :=
  ∀ G : GenMatrix,
    (∀ d : DataWord, (encodeWord G d).extractLsb' 11 12 = d) ∧
    (∀ a b : DataWord, encodeWord G a = encodeWord G b → a = b) ∧
    (∀ a b : DataWord, encodeWord G (a ^^^ b) = encodeWord G a ^^^ encodeWord G b) ∧
    (∀ d : DataWord, syndromeOf G (encodeWord G d) = 0#11) ∧
    ((Finset.univ : Finset DataWord).image (encodeWord G)).card = 4096 ∧
    (wfG G = true → ∀ a b : DataWord, a ≠ b → 7 ≤ popcount (encodeWord G a ^^^ encodeWord G b))

/-- 44_decoder.md, round-trip identity (an inference the spec marks as its own), over two transactions: DECODE of the response of
ENCODE gives the data back with every flag clear. -/
def Obligations.DecodeOfEncodeIsTheData : Prop :=
  ∀ (s : State) (d : DataWord), ∃ t : State,
    exec (.encode d) s = .next t ∧
    exec (.decode t.rsp.value) t = .next { t with rsp :=
      { invalidWidth := false, uncorrectable := false, corrected := false, flipped := 0#2, value := d.setWidth 23 } }

/-- 95_test_vectors.md, Program 5 (the equality is said of every `G`): when DECODE reports no `Uncorrectable`, encoding its data gives
CORRECT's word. -/
def Obligations.ReencodingGivesTheCorrectedWord : Prop :=
  ∀ (s : State) (r : Word23), ∃ t u v : State,
    exec (.decode r) s = .next t ∧ exec (.correct r) t = .next u ∧
    exec (.encode (t.rsp.value.extractLsb' 0 12)) u = .next v ∧
    (t.rsp.uncorrectable = false → v.rsp.value = u.rsp.value)

/-- 43_error_search.md, states 2 to 4: the candidates are the patterns of weight 1, 2 and 3, each once, in lexicographic order, 2047 of
them. -/
def Obligations.CandidatesAreAllPatternsInOrder : Prop :=
  (∀ P : ErrorPattern, P ∈ candidates1 ↔ P.Pairwise (· < ·) ∧ P.length = 1) ∧
  (∀ P : ErrorPattern, P ∈ candidates2 ↔ P.Pairwise (· < ·) ∧ P.length = 2) ∧
  (∀ P : ErrorPattern, P ∈ candidates3 ↔ P.Pairwise (· < ·) ∧ P.length = 3) ∧
  candidates1.Pairwise (· < ·) ∧ candidates2.Pairwise (· < ·) ∧ candidates3.Pairwise (· < ·) ∧
  candidates1.length = 23 ∧ candidates2.length = 253 ∧ candidates3.length = 1771

/-- 43_error_search.md, lookup table (decision D11): a table filled in the search's order, keeping the first pattern for each syndrome,
answers what the search answers, for every `G`. -/
def Obligations.LookupTableEqualsSearch : Prop :=
  ∀ (s : State) (r : Word23), syndromeOf s.config.G r ≠ 0#11 →
    exec (.correct r) s =
      match tablePattern s.config.G (syndromeOf s.config.G r) with
      | some P => .next { s with rsp :=
          { invalidWidth := false, uncorrectable := false, corrected := decide (1 ≤ P.length),
            flipped := BitVec.ofNat 2 P.length, value := r ^^^ patternMask P } }
      | none => .next { s with rsp :=
          { invalidWidth := false, uncorrectable := true, corrected := false, flipped := 0#2, value := r } }

/-! ## A well-formed `G` -/

/-- Rule R94: `WF_G` says that every nonzero valid codeword has weight at least 7, which is minimum distance 7. -/
def Obligations.WellFormedMatrixMeansDistanceSeven : Prop :=
  ∀ G : GenMatrix,
    (wfG G = true ↔ ∀ d : DataWord, d ≠ 0#12 → 7 ≤ popcount (encodeWord G d)) ∧
    (wfG G = true ↔ ∀ a b : DataWord, encodeWord G a ≠ encodeWord G b → 7 ≤ popcount (encodeWord G a ^^^ encodeWord G b))

/-- 40_matrix_tables.md, row weights (an inference the spec marks as its own). -/
def Obligations.RowWeights : Prop :=
  ∀ G : GenMatrix, wfG G = true →
    (∀ J : List (Fin 12), J.Nodup → 1 ≤ J.length → J.length ≤ 6 →
      7 - J.length ≤ popcount (xorReduce (J.map fun j => G[j]))) ∧
    (∀ (j : Fin 12) (a b c : Fin 11), G[j] ≠ unitRow a ∧ G[j] ≠ unitRow a ^^^ unitRow b ∧
      G[j] ≠ unitRow a ^^^ unitRow b ^^^ unitRow c) ∧
    (∀ p : Fin 23, hRow G p ≠ 0#11) ∧ (∀ p q : Fin 23, hRow G p = hRow G q → p = q)

/-- 40_matrix_tables.md, uniqueness (an inference the spec marks as its own). -/
def Obligations.PatternsHaveDistinctSyndromes : Prop :=
  ∀ G : GenMatrix, wfG G = true → ∀ P Q : ErrorPattern, isPattern P → isPattern Q →
    xorReduce (P.map (hRow G)) = xorReduce (Q.map (hRow G)) → P = Q

/-- 40_matrix_tables.md, perfection (an inference the spec marks as its own): there are 2048 patterns of weight at most 3, every
syndrome is that of exactly one of them, every word is within distance 3 of exactly one valid codeword, and the search never fails. -/
def Obligations.CodeIsPerfect : Prop :=
  (∀ P : ErrorPattern, P ∈ allPatterns ↔ isPattern P) ∧ allPatterns.Nodup ∧ allPatterns.length = 2048 ∧
  ∀ G : GenMatrix, wfG G = true →
    perfectCode G = true ∧
    (∀ S : Row11, ∃! P : ErrorPattern, isPattern P ∧ xorReduce (P.map (hRow G)) = S) ∧
    (∀ S : Row11, S ≠ 0#11 → ∃! P : ErrorPattern, isPattern P ∧ 1 ≤ P.length ∧ xorReduce (P.map (hRow G)) = S) ∧
    (∀ r : Word23, ∃! c : Word23, (∃ d : DataWord, c = encodeWord G d) ∧ popcount (c ^^^ r) ≤ 3) ∧
    (∀ r : Word23, (codewordsNear G r).length = 1) ∧
    (∀ S : Row11, S ≠ 0#11 → ∃ P : ErrorPattern, searchPattern G S = some P) ∧
    ∀ r : Word23, (correctWord G r).uncorrectable = false

/-- 43_error_search.md, the guarantee (an inference the spec marks as its own): up to three flipped bits are found and flipped back.
The bit `corrected` is the spec's decision D6 (log 14). -/
def Obligations.CorrectionGuarantee : Prop :=
  ∀ (s : State) (d : DataWord) (P : ErrorPattern), wfG s.config.G = true → isPattern P →
    exec (.correct (encodeWord s.config.G d ^^^ patternMask P)) s = .next { s with rsp :=
      { invalidWidth := false, uncorrectable := false, corrected := decide (1 ≤ P.length),
        flipped := BitVec.ofNat 2 P.length, value := encodeWord s.config.G d } } ∧
    (correctWord s.config.G (encodeWord s.config.G d ^^^ patternMask P)).pattern = P

/-- 43_error_search.md (an inference the spec marks as its own): a well-formed block never reports `Uncorrectable`; CORRECT returns the
one valid codeword within distance 3, and `flipped` is that distance. The bit `corrected` is the spec's decision D6 (log 14). -/
def Obligations.CorrectReturnsTheNearestCodeword : Prop :=
  ∀ (s : State) (r : Word23), wfG s.config.G = true → ∃ (c : Word23) (n : Nat),
    exec (.correct r) s = .next { s with rsp :=
      { invalidWidth := false, uncorrectable := false, corrected := decide (1 ≤ n), flipped := BitVec.ofNat 2 n, value := c } } ∧
    (∃ d : DataWord, c = encodeWord s.config.G d) ∧ popcount (c ^^^ r) = n ∧ n ≤ 3 ∧
    ∀ d : DataWord, popcount (encodeWord s.config.G d ^^^ r) ≤ 3 → encodeWord s.config.G d = c

/-- 44_decoder.md, exhaustive correctness (an inference the spec marks as its own): for all 4096 data words and all 2048 error masks of
weight at most 3. The bit `corrected` is the spec's decision D6 (log 14). -/
def Obligations.DecodeCorrectsUpToThreeErrors : Prop :=
  ∀ (s : State) (d : DataWord) (e : Word23), wfG s.config.G = true → popcount e ≤ 3 →
    exec (.decode (encodeWord s.config.G d ^^^ e)) s = .next { s with rsp :=
      { invalidWidth := false, uncorrectable := false, corrected := decide (1 ≤ popcount e),
        flipped := BitVec.ofNat 2 (popcount e), value := d.setWidth 23 } }

/-- 43_error_search.md, beyond the guarantee (an inference the spec marks as its own): four or more errors give another valid codeword,
reported as a success; exactly four give three flips and a codeword at distance 7 that contains the four. The bit `corrected` is the spec's
decision D6 (log 14). -/
def Obligations.MoreThanThreeErrorsMiscorrect : Prop :=
  ∀ (s : State) (d : DataWord) (e : Word23), wfG s.config.G = true → 4 ≤ popcount e →
    ∃ (d' : DataWord) (n : Nat),
      exec (.correct (encodeWord s.config.G d ^^^ e)) s = .next { s with rsp :=
        { invalidWidth := false, uncorrectable := false, corrected := decide (1 ≤ n), flipped := BitVec.ofNat 2 n,
          value := encodeWord s.config.G d' } } ∧
      d' ≠ d ∧ n ≤ 3 ∧
      ((∃ d'' : DataWord, e = encodeWord s.config.G d'') → n = 0) ∧
      (popcount e = 4 → n = 3 ∧ popcount (encodeWord s.config.G d ^^^ encodeWord s.config.G d') = 7 ∧
        (encodeWord s.config.G d ^^^ encodeWord s.config.G d') &&& e = e)

/-! ## Configuration and reset -/

/-- 40_matrix_tables.md, `G_REF` (general knowledge, log 2): row j is `x^(22 - j) mod g(x)`. -/
def Obligations.ReferenceRowsAreCyclic : Prop :=
  ∀ j : Fin 12, gRef[j] = xPowModG (22 - j.val)

/-- 40_matrix_tables.md, the checks of `G_REF` by enumeration and the all-ones word (the spec marks them as its own inferences; `G_REF` is
general knowledge, log 2): it is well formed, its codewords have the weights 0, 7, 8, 11, 12, 15, 16 and 23 in the numbers the spec
gives, and its 2048 patterns have 2048 distinct syndromes. -/
def Obligations.ReferenceMatrixChecks : Prop :=
  wfG gRef = true ∧
  weightDistribution gRef =
    [1, 0, 0, 0, 0, 0, 0, 253, 506, 0, 0, 1288, 1288, 0, 0, 506, 253, 0, 0, 0, 0, 0, 0, 1] ∧
  distinctSyndromes gRef = true ∧ encodeWord gRef 0xFFF#12 = 0x7FFFFF#23

/-- 10_state.md, reset values (decision D10): for every `G`, the response ports after reset show what the function gives for the request
then presented. That this request is all zero is the model's choice (log 5), and that its response is the stored one, so that a step
changes nothing, is so too (log 6). -/
def Obligations.ResetShowsItsRequestsResponse : Prop :=
  ∀ c : Config,
    (State.resetWith c).rspPorts =
      { invalidWidth := false, uncorrectable := false, corrected := false, flipped := 0#2, value := 0#23 } ∧
    (State.resetWith c).rsp = (State.resetWith c).rspPorts ∧ step (State.resetWith c) = .next (State.resetWith c)

/-- 70_reset_and_hazards.md, reset (decision D10): the first transaction after reset behaves as every other one does.
For the unspecified fields of the response to a too-wide ENCODE this is the model's inference (log 4). -/
def Obligations.ResetHasNoObservableEffect : Prop :=
  ∀ (s : State) (w : ReqWord), ∃ t u : State,
    step (s.present w) = .next t ∧ step ((State.resetWith s.config).present w) = .next u ∧ u = t

/-- Every step keeps the invariant of a well-formed block: `G` stays well formed and every usable response is consistent and reports no
`Uncorrectable`. -/
def Obligations.StepKeepsTheBlockWellFormed : Prop :=
  ∀ s t : State, s.inv = true → step s = .next t → t.inv = true

/-- The invariant holds at reset, with the reference matrix (log 2). -/
def Obligations.ResetBlockIsWellFormed : Prop := State.reset.inv = true
end

