-- ==== Sys2Proof/Laws/Decode.lean ====
section
/-! SUPPORT. The bits and fields of an encoded request (30_encoding.md R61 to R64). -/

namespace Sys2Proof

/-- Bits of `req_op ‖ req_arg`. -/
theorem getLsbD_joinRequest (op : BitVec 2) (arg : Word23) (k : Nat) :
    (joinRequest op arg).getLsbD k = if k < 23 then arg.getLsbD k else op.getLsbD (k - 23) :=
  BitVec.getLsbD_append (x := op) (y := arg)

/-- Bits of `zero ‖ data`. -/
theorem getLsbD_joinFormatE (zero : Row11) (data : DataWord) (k : Nat) :
    (joinFormatE zero data).getLsbD k = if k < 12 then data.getLsbD k else zero.getLsbD (k - 12) :=
  BitVec.getLsbD_append (x := zero) (y := data)

@[simp] theorem reqOpField_joinRequest (op : BitVec 2) (arg : Word23) : reqOpField (joinRequest op arg) = op := by
  apply BitVec.eq_of_getLsbD_eq
  intro k hk
  simp [-BitVec.getLsbD_eq_getElem, reqOpField, getLsbD_joinRequest, hk]

@[simp] theorem reqArgField_joinRequest (op : BitVec 2) (arg : Word23) : reqArgField (joinRequest op arg) = arg := by
  apply BitVec.eq_of_getLsbD_eq
  intro k hk
  simp [-BitVec.getLsbD_eq_getElem, reqArgField, getLsbD_joinRequest, hk]

@[simp] theorem reqZeroField_joinRequest (op : BitVec 2) (zero : Row11) (data : DataWord) :
    reqZeroField (joinRequest op (joinFormatE zero data)) = zero := by
  apply BitVec.eq_of_getLsbD_eq
  intro k hk
  simp [-BitVec.getLsbD_eq_getElem, reqZeroField, getLsbD_joinRequest, getLsbD_joinFormatE, hk, show 12 + k < 23 by omega]

@[simp] theorem reqDataField_joinRequest (op : BitVec 2) (zero : Row11) (data : DataWord) :
    reqDataField (joinRequest op (joinFormatE zero data)) = data := by
  apply BitVec.eq_of_getLsbD_eq
  intro k hk
  simp [-BitVec.getLsbD_eq_getElem, reqDataField, getLsbD_joinRequest, getLsbD_joinFormatE, hk, show k < 23 by omega]

/-- A word is its opcode and its operand field (R61). -/
@[simp] theorem joinRequest_fields (w : ReqWord) : joinRequest (reqOpField w) (reqArgField w) = w := by
  apply BitVec.eq_of_getLsbD_eq
  intro k hk
  by_cases h : k < 23
  · simp [-BitVec.getLsbD_eq_getElem, getLsbD_joinRequest, reqArgField, h]
  · simp [-BitVec.getLsbD_eq_getElem, getLsbD_joinRequest, reqOpField, h, show k - 23 < 2 by omega, show 23 + (k - 23) = k by omega]

/-- Format E: the operand field is `zero` and `data` (R63). -/
theorem reqArgField_formatE (w : ReqWord) : reqArgField w = joinFormatE (reqZeroField w) (reqDataField w) := by
  apply BitVec.eq_of_getLsbD_eq
  intro k hk
  by_cases h : k < 12
  · simp [-BitVec.getLsbD_eq_getElem, getLsbD_joinFormatE, reqArgField, reqDataField, h, hk]
  · simp [-BitVec.getLsbD_eq_getElem, getLsbD_joinFormatE, reqArgField, reqZeroField, h, hk, show k - 12 < 11 by omega,
      show 12 + (k - 12) = k by omega]

/-- Every format E request decodes to a well-formed term (R68). -/
theorem decodeFormatE_wellFormed (zero : Row11) (data : DataWord) : (decodeFormatE zero data).wellFormed = true := by
  unfold decodeFormatE
  split <;> simp_all [Instr.wellFormed]

end Sys2Proof
end

