-- ==== Sys2Proof/Laws/State.lean ====
section
/-! SUPPORT. One lemma per field for each way a state is made or changed, so that no proof unfolds a record update. -/

namespace Sys2Proof.Machine

@[simp] theorem resetWith_config (c : Config) : (State.resetWith c).config = c := rfl
@[simp] theorem resetWith_reqOp (c : Config) : (State.resetWith c).reqOp = 0#2 := rfl
@[simp] theorem resetWith_reqArg (c : Config) : (State.resetWith c).reqArg = 0#23 := rfl
@[simp] theorem resetWith_rsp (c : Config) : (State.resetWith c).rsp = plainResponse 0#23 := rfl
@[simp] theorem reset_eq_resetWith : State.reset = State.resetWith refConfig := rfl

@[simp] theorem present_config (s : State) (w : ReqWord) : (s.present w).config = s.config := rfl
@[simp] theorem present_rsp (s : State) (w : ReqWord) : (s.present w).rsp = s.rsp := rfl
@[simp] theorem present_reqOp (s : State) (w : ReqWord) : (s.present w).reqOp = reqOpField w := rfl
@[simp] theorem present_reqArg (s : State) (w : ReqWord) : (s.present w).reqArg = reqArgField w := rfl
@[simp] theorem withFetchWord_eq_present (s : State) (nbits w : Nat) :
    s.withFetchWord nbits w = s.present (portWord nbits w) := rfl

/-- What is presented is what stands on the ports. -/
@[simp] theorem request_present (s : State) (w : ReqWord) : (s.present w).request = w := joinRequest_fields w

end Sys2Proof.Machine
end

