-- ==== Sys2Proof/Laws/Ops.lean ====
section
/-! SUPPORT. What the shared operations can do, said once. -/

namespace Sys2Proof.Machine

/-! The response of each request, down to the products and the search. -/

@[simp] theorem responseTo_encode (G : GenMatrix) (data : DataWord) :
    responseTo G (.encode data) = plainResponse (encodeWord G data) := rfl

@[simp] theorem responseTo_syndrome (G : GenMatrix) (received : Word23) :
    responseTo G (.syndrome received) = plainResponse (zext23 (syndromeOf G received)) := rfl

@[simp] theorem responseTo_correct (G : GenMatrix) (received : Word23) :
    responseTo G (.correct received) = searchResponse (correctWord G received).value (correctWord G received).flipped
      (correctWord G received).uncorrectable := rfl

@[simp] theorem responseTo_decode (G : GenMatrix) (received : Word23) :
    responseTo G (.decode received) = searchResponse (zext23 (dataField (correctWord G received).value))
      (correctWord G received).flipped (correctWord G received).uncorrectable := rfl

@[simp] theorem responseTo_encodeInvalid (G : GenMatrix) (zero : Row11) (data : DataWord) :
    responseTo G (.encodeInvalid zero data) = invalidWidthResponse G (joinFormatE zero data) := rfl

/-- Responding always succeeds and writes the response alone. -/
theorem respond_eq_next_iff {s t : State} {r : Response} : respond s r = .next t ↔ t = { s with rsp := r } := by
  simp [respond, eq_comm]

theorem raiseInvalidWidth_eq (s : State) (arg : Word23) :
    raiseInvalidWidth s arg = .next { s with rsp := invalidWidthResponse s.config.G arg } := rfl

/-- Every meaning is one response: proofs about `exec` go through this and `responseTo`. -/
theorem exec_eq_respond (i : Instr) (s : State) : exec i s = respond s (responseTo s.config.G i) := by
  cases i <;> rfl

/-- The fields of the request on the ports, taken from the operand port (30_encoding.md R63). -/
@[simp] theorem reqZeroField_request (s : State) : reqZeroField s.request = s.reqArg.extractLsb' 12 11 := by
  apply BitVec.eq_of_getLsbD_eq
  intro k hk
  simp [-BitVec.getLsbD_eq_getElem, reqZeroField, State.request, getLsbD_joinRequest, hk, show 12 + k < 23 by omega]

@[simp] theorem reqDataField_request (s : State) : reqDataField s.request = s.reqArg.extractLsb' 0 12 := by
  apply BitVec.eq_of_getLsbD_eq
  intro k hk
  simp [-BitVec.getLsbD_eq_getElem, reqDataField, State.request, getLsbD_joinRequest, hk, show k < 23 by omega]

/-- What the request on the ports decodes to, in terms of the ports. -/
theorem decodeRequest_request (s : State) :
    decodeRequest s.request =
      if s.reqOp = 0b00#2 then decodeFormatE (s.reqArg.extractLsb' 12 11) (s.reqArg.extractLsb' 0 12)
      else if s.reqOp = 0b01#2 then .syndrome s.reqArg
      else if s.reqOp = 0b10#2 then .correct s.reqArg
      else .decode s.reqArg := by
  have hop : reqOpField s.request = s.reqOp := reqOpField_joinRequest _ _
  have harg : reqArgField s.request = s.reqArg := reqArgField_joinRequest _ _
  simp only [decodeRequest, reqZeroField_request, reqDataField_request, hop, harg]

/-- All that a step can do. -/
theorem step_eq_next_iff {s t : State} :
    step s = .next t ↔ t = { s with rsp := responseTo s.config.G (decodeRequest s.request) } := by
  rw [step, exec_eq_respond, respond_eq_next_iff]

/-- A presented request is at once answered on the response ports. -/
@[simp] theorem rspPorts_present (s : State) (w : ReqWord) :
    (s.present w).rspPorts = responseTo s.config.G (decodeRequest w) := by
  simp [State.rspPorts]

/-- The bits of a response word (30_encoding.md R65). -/
theorem getLsbD_responseWord (r : Response) (k : Nat) :
    r.word.getLsbD k =
      if k < 23 then r.value.getLsbD k
      else if k < 25 then r.flipped.getLsbD (k - 23)
      else if k < 26 then (BitVec.ofBool r.corrected).getLsbD (k - 25)
      else if k < 27 then (BitVec.ofBool r.uncorrectable).getLsbD (k - 26)
      else (BitVec.ofBool r.invalidWidth).getLsbD (k - 27) := by
  have h : ∀ (a b c : BitVec 1) (f : BitVec 2) (v : Word23),
      (a ++ (b ++ (c ++ (f ++ v)))).getLsbD k =
        if k < 23 then v.getLsbD k
        else if k < 25 then f.getLsbD (k - 23)
        else if k < 26 then c.getLsbD (k - 25)
        else if k < 27 then b.getLsbD (k - 26)
        else a.getLsbD (k - 27) := by
    intro a b c f v
    simp only [BitVec.getLsbD_append]
    split_ifs <;> first | rfl | omega
  exact h _ _ _ _ _

end Sys2Proof.Machine
end

