-- ==== Sys2Proof/Laws/Codec.lean ====
section
/-! SUPPORT. The small lemmas of the bit operations and of the two GF(2) products. -/

namespace Sys2Proof.Machine

/-! ## xorReduce and selectRow -/

@[simp] theorem xorReduce_nil {n : Nat} : xorReduce ([] : List (BitVec n)) = 0#n := rfl

@[simp] theorem xorReduce_cons {n : Nat} (v : BitVec n) (vs : List (BitVec n)) :
    xorReduce (v :: vs) = v ^^^ xorReduce vs := rfl

theorem xorReduce_append {n : Nat} (us vs : List (BitVec n)) : xorReduce (us ++ vs) = xorReduce us ^^^ xorReduce vs := by
  induction us with
  | nil => simp
  | cons u us ih => simp [ih, BitVec.xor_assoc]

theorem xorReduce_map_xor {α : Type} {n : Nat} (f g : α → BitVec n) (l : List α) :
    xorReduce (l.map fun x => f x ^^^ g x) = xorReduce (l.map f) ^^^ xorReduce (l.map g) := by
  induction l with
  | nil => simp
  | cons x l ih =>
    simp only [List.map_cons, xorReduce_cons, ih]
    ac_rfl

theorem xorReduce_map_zero {α : Type} {n : Nat} (l : List α) : xorReduce (l.map fun _ => 0#n) = 0#n := by
  induction l with
  | nil => rfl
  | cons x l ih => simp only [List.map_cons, xorReduce_cons, ih, BitVec.xor_self]

/-- One column of an XOR of rows. -/
theorem getLsbD_xorReduce {n : Nat} (l : List (BitVec n)) (k : Nat) :
    (xorReduce l).getLsbD k = l.foldl (fun acc v => acc ^^ v.getLsbD k) false := by
  have general : ∀ (acc : Bool), (acc ^^ (xorReduce l).getLsbD k) = l.foldl (fun acc v => acc ^^ v.getLsbD k) acc := by
    induction l with
    | nil => simp
    | cons v l ih => intro acc; simp [← ih]
  simpa using general false

@[simp] theorem selectRow_false (row : Row11) : selectRow false row = 0#11 := rfl
@[simp] theorem selectRow_true (row : Row11) : selectRow true row = row := rfl

theorem selectRow_xor (a b : Bool) (row : Row11) : selectRow (a ^^ b) row = selectRow a row ^^^ selectRow b row := by
  cases a <;> cases b <;> simp

theorem getLsbD_selectRow (bit : Bool) (row : Row11) (k : Nat) : (selectRow bit row).getLsbD k = (bit && row.getLsbD k) := by
  cases bit <;> simp

/-! ## Numbering (00_scope.md R9, R10) -/

theorem dataBit_xor (a b : DataWord) (j : Fin 12) : dataBit (a ^^^ b) j = (dataBit a j ^^ dataBit b j) := by
  simp [dataBit]

theorem positionBit_xor (u v : Word23) (p : Position) : positionBit (u ^^^ v) p = (positionBit u p ^^ positionBit v p) := by
  simp [positionBit]

theorem getLsbD_positionMask (p : Position) (k : Nat) : (positionMask p).getLsbD k = decide (k = 22 - p.val) := by
  by_cases hk : k < 23
  · simp only [positionMask, BitVec.getLsbD_shiftLeft, BitVec.getLsbD_one]
    have := p.isLt
    by_cases h : k = 22 - p.val
    · subst h; simp [hk]
    · simp [h, hk]; omega
  · have : k ≠ 22 - p.val := by omega
    simp [this, BitVec.getLsbD_of_ge _ _ (Nat.le_of_not_lt hk)]

theorem positionBit_positionMask (p q : Position) : positionBit (positionMask p) q = decide (p = q) := by
  have hp := p.isLt
  have hq := q.isLt
  simp only [positionBit, getLsbD_positionMask, Fin.ext_iff]
  congr 1
  apply propext
  omega

/-- Flipping one position after another is one XOR with the pattern's mask. -/
theorem foldl_flipPosition (P : ErrorPattern) (w : Word23) : P.foldl flipPosition w = w ^^^ patternMask P := by
  induction P generalizing w with
  | nil => simp [patternMask]
  | cons p P ih => simp [ih, patternMask, flipPosition, BitVec.xor_assoc]

/-! ## The matrices (40_matrix_tables.md R92) -/

theorem hRow_of_lt (G : GenMatrix) (p : Position) (h : p.val < 12) : hRow G p = G[p.val] := by
  simp [hRow, h]

theorem hRow_of_not_lt (G : GenMatrix) (p : Position) (h : ¬p.val < 12) : hRow G p = 1#11 <<< (22 - p.val) := by
  simp [hRow, h]

/-- The identity block: row `12 + i` of `H` is `e_i` (40_matrix_tables.md R92, R93). -/
@[simp] theorem hRow_natAdd (G : GenMatrix) (i : Fin 11) : hRow G (Fin.natAdd 12 i) = unitRow i := by
  rw [hRow_of_not_lt G _ (by simp), unitRow, Fin.val_natAdd]
  congr 1
  omega

/-! ## The fields of a codeword (41_encoder.md R110) -/

theorem getLsbD_joinFields (d : DataWord) (row : Row11) (k : Nat) :
    (joinFields d row).getLsbD k = if k < 11 then row.getLsbD k else d.getLsbD (k - 11) :=
  BitVec.getLsbD_append (x := d) (y := row)

@[simp] theorem dataField_joinFields (d : DataWord) (row : Row11) : dataField (joinFields d row) = d := by
  apply BitVec.eq_of_getLsbD_eq
  intro k hk
  simp [-BitVec.getLsbD_eq_getElem, dataField, getLsbD_joinFields, hk]

@[simp] theorem parityField_joinFields (d : DataWord) (row : Row11) : parityField (joinFields d row) = row := by
  apply BitVec.eq_of_getLsbD_eq
  intro k hk
  simp [-BitVec.getLsbD_eq_getElem, parityField, getLsbD_joinFields, hk]

/-- A 23-bit word is its data part and its parity part (20_memory.md R40). -/
@[simp] theorem joinFields_fields (w : Word23) : joinFields (dataField w) (parityField w) = w := by
  apply BitVec.eq_of_getLsbD_eq
  intro k hk
  by_cases h : k < 11
  · simp [-BitVec.getLsbD_eq_getElem, getLsbD_joinFields, parityField, h]
  · simp [-BitVec.getLsbD_eq_getElem, getLsbD_joinFields, dataField, h, show k - 11 < 12 by omega,
      show 11 + (k - 11) = k by omega]

theorem joinFields_xor (a b : DataWord) (u v : Row11) :
    joinFields (a ^^^ b) (u ^^^ v) = joinFields a u ^^^ joinFields b v := by
  apply BitVec.eq_of_getLsbD_eq
  intro k hk
  simp only [getLsbD_joinFields, BitVec.getLsbD_xor]
  split <;> rfl

theorem joinFields_inj {a b : DataWord} {u v : Row11} (h : joinFields a u = joinFields b v) : a = b ∧ u = v :=
  ⟨by simpa using congrArg dataField h, by simpa using congrArg parityField h⟩

/-! ## popcount (00_scope.md R11) -/

@[simp] theorem popcount_zero {n : Nat} : popcount (0#n) = 0 := by simp [popcount]

theorem popcount_eq_zero_iff {n : Nat} (v : BitVec n) : popcount v = 0 ↔ v = 0#n := by
  constructor
  · intro h
    apply BitVec.eq_of_getLsbD_eq
    intro k hk
    have := (List.countP_eq_zero.mp h) ⟨k, hk⟩ (List.mem_finRange _)
    simpa using this
  · rintro rfl
    exact popcount_zero

/-- Two words differ in at most as many positions as they have set bits together. -/
theorem popcount_xor_le {n : Nat} (u v : BitVec n) : popcount (u ^^^ v) ≤ popcount u + popcount v := by
  have general : ∀ l : List (Fin n), l.countP (fun k => (u ^^^ v).getLsbD k.val) ≤
      l.countP (fun k => u.getLsbD k.val) + l.countP (fun k => v.getLsbD k.val) := by
    intro l
    induction l with
    | nil => simp
    | cons k l ih =>
      have hx : (u ^^^ v).getLsbD k.val = (u.getLsbD k.val ^^ v.getLsbD k.val) := BitVec.getLsbD_xor
      simp only [List.countP_cons, hx]
      cases u.getLsbD k.val <;> cases v.getLsbD k.val <;>
        simp only [Bool.xor_false, Bool.xor_true, Bool.not_true, Bool.not_false, if_true, Bool.false_eq_true, if_false] <;> omega
  exact general _

end Sys2Proof.Machine
end

