-- ==== Sys2Proof/Laws/Search.lean ====
section
/-! SUPPORT. What the search's candidates are and what each answer of the search means (43_error_search.md R130 to R136). -/

namespace Sys2Proof.Machine

theorem mem_positions (p : Position) : p ∈ positions := List.mem_finRange p

theorem mem_positionsAfter {i j : Position} : j ∈ positionsAfter i ↔ i < j := by
  simp [positionsAfter, mem_positions]

theorem mem_candidates1 {P : ErrorPattern} : P ∈ candidates1 ↔ ∃ p, P = [p] := by
  simp [candidates1, mem_positions, eq_comm]

theorem mem_candidates2 {P : ErrorPattern} : P ∈ candidates2 ↔ ∃ i j, i < j ∧ P = [i, j] := by
  simp [candidates2, mem_positions, mem_positionsAfter, eq_comm]

theorem mem_candidates3 {P : ErrorPattern} : P ∈ candidates3 ↔ ∃ i j k, i < j ∧ j < k ∧ P = [i, j, k] := by
  simp [candidates3, mem_positions, mem_positionsAfter, eq_comm]

/-- The search tries patterns of weight at most 3, and tries all of them but the empty one. -/
theorem mem_allPatterns {P : ErrorPattern} : P ∈ allPatterns ↔ isPattern P := by
  simp only [allPatterns, List.mem_cons, List.mem_append, mem_candidates1, mem_candidates2, mem_candidates3, isPattern]
  constructor
  · rintro (rfl | (⟨i, rfl⟩ | ⟨i, j, hij, rfl⟩) | ⟨i, j, k, hij, hjk, rfl⟩)
    · simp
    · simp
    · simp [hij]
    · simp [hij, hjk, hij.trans hjk]
  · match P with
    | [] => simp
    | [i] => simp
    | [i, j] => simp
    | [i, j, k] => simp +contextual
    | _ :: _ :: _ :: _ :: _ => simp

theorem allPatterns_length : allPatterns.length = 2048 := by decide +kernel

/-- A match is a candidate with the wanted syndrome, and every candidate before it has another one. -/
theorem firstMatch_eq_some {G : GenMatrix} {S : Row11} {c : List ErrorPattern} {P : ErrorPattern}
    (h : firstMatch G S c = some P) :
    patternSyndrome G P = S ∧ ∃ before after, c = before ++ P :: after ∧ ∀ Q ∈ before, patternSyndrome G Q ≠ S := by
  simpa [firstMatch, List.find?_eq_some_iff_append] using h

theorem firstMatch_eq_none {G : GenMatrix} {S : Row11} {c : List ErrorPattern} :
    firstMatch G S c = none ↔ ∀ P ∈ c, patternSyndrome G P ≠ S := by
  simp [firstMatch, List.find?_eq_none]

/-- The ways the search can end, with what each has tried before. -/
theorem searchPattern_cases (G : GenMatrix) (S : Row11) :
    (∃ P, firstMatch G S candidates1 = some P ∧ searchPattern G S = some P) ∨
    (firstMatch G S candidates1 = none ∧ ∃ P, firstMatch G S candidates2 = some P ∧ searchPattern G S = some P) ∨
    (firstMatch G S candidates1 = none ∧ firstMatch G S candidates2 = none ∧
      ∃ P, firstMatch G S candidates3 = some P ∧ searchPattern G S = some P) ∨
    (firstMatch G S candidates1 = none ∧ firstMatch G S candidates2 = none ∧ firstMatch G S candidates3 = none ∧
      searchPattern G S = none) := by
  unfold searchPattern
  cases h1 : firstMatch G S candidates1 <;> cases h2 : firstMatch G S candidates2 <;>
    cases h3 : firstMatch G S candidates3 <;> simp

/-- A pattern the search finds has the wanted syndrome, and is one, two or three positions in ascending order. -/
theorem searchPattern_some {G : GenMatrix} {S : Row11} {P : ErrorPattern} (h : searchPattern G S = some P) :
    patternSyndrome G P = S ∧ P.Pairwise (· < ·) ∧ 1 ≤ P.length ∧ P.length ≤ 3 := by
  have found : ∀ {c : List ErrorPattern}, firstMatch G S c = some P → P ∈ c ∧ patternSyndrome G P = S := fun h =>
    ⟨List.mem_of_find?_eq_some h, (firstMatch_eq_some h).1⟩
  rcases searchPattern_cases G S with ⟨Q, hQ, hs⟩ | ⟨-, Q, hQ, hs⟩ | ⟨-, -, Q, hQ, hs⟩ | ⟨-, -, -, hs⟩
  all_goals rw [h] at hs
  · cases hs
    obtain ⟨hm, hS⟩ := found hQ
    obtain ⟨p, rfl⟩ := mem_candidates1.mp hm
    exact ⟨hS, by simp, by simp, by simp⟩
  · cases hs
    obtain ⟨hm, hS⟩ := found hQ
    obtain ⟨i, j, hij, rfl⟩ := mem_candidates2.mp hm
    exact ⟨hS, by simp [hij], by simp, by simp⟩
  · cases hs
    obtain ⟨hm, hS⟩ := found hQ
    obtain ⟨i, j, k, hij, hjk, rfl⟩ := mem_candidates3.mp hm
    exact ⟨hS, by simp [hij, hjk, hij.trans hjk], by simp, by simp⟩
  · cases hs

/-- The three ways `CORRECT` can end: state 1, a match, state 5. -/
theorem correctWord_cases (G : GenMatrix) (r : Word23) :
    (syndromeOf G r = 0#11 ∧ correctWord G r = unchangedResult r) ∨
    (syndromeOf G r ≠ 0#11 ∧ ∃ P, searchPattern G (syndromeOf G r) = some P ∧ correctWord G r = flippedResult r P) ∨
    (syndromeOf G r ≠ 0#11 ∧ searchPattern G (syndromeOf G r) = none ∧ correctWord G r = uncorrectableResult r) := by
  unfold correctWord
  by_cases h : syndromeOf G r = 0#11
  · exact .inl ⟨h, by simp [h]⟩
  · cases hs : searchPattern G (syndromeOf G r) with
    | some P => exact .inr (.inl ⟨h, P, rfl, by simp [h]⟩)
    | none => exact .inr (.inr ⟨h, rfl, by simp [h]⟩)

end Sys2Proof.Machine
end

