-- ==== Sys2Proof/Laws/Patterns.lean ====
section
/-! SUPPORT. Error patterns and their masks (10_state.md R28): a pattern is its mask, and its weight is the mask's. -/

namespace Sys2Proof.Machine

/-- The encoder's parity is linear in the data word, row by row. -/
theorem parity_xor (G : GenMatrix) (a b : DataWord) : parity G (a ^^^ b) = parity G a ^^^ parity G b := by
  unfold parity
  rw [← xorReduce_map_xor]
  simp only [dataBit_xor, selectRow_xor]

/-- Selecting one row of a list without repeats gives that row. -/
theorem xorReduce_select_one (row : Position → Row11) (p : Position) (l : List Position) (hl : l.Nodup) :
    xorReduce (l.map fun q => selectRow (decide (p = q)) (row q)) = if p ∈ l then row p else 0#11 := by
  induction l with
  | nil => simp
  | cons q l ih =>
    obtain ⟨hq, hl⟩ := List.nodup_cons.mp hl
    simp only [List.map_cons, xorReduce_cons, ih hl, List.mem_cons]
    by_cases h : p = q
    · subst h; simp [hq]
    · simp [h]

@[simp] theorem patternMask_nil : patternMask [] = 0#23 := rfl

@[simp] theorem patternMask_cons (p : Position) (P : ErrorPattern) :
    patternMask (p :: P) = positionMask p ^^^ patternMask P := rfl

theorem popcount_positionMask (p : Position) : popcount (positionMask p) = 1 := by
  revert p; decide

/-- The positions set in a pattern's mask are the pattern's. -/
theorem positionBit_patternMask {P : ErrorPattern} (h : P.Pairwise (· < ·)) (q : Position) :
    positionBit (patternMask P) q = decide (q ∈ P) := by
  induction P with
  | nil => simp [positionBit]
  | cons p P ih =>
    have hp : p ∉ P := fun hm => lt_irrefl _ (List.rel_of_pairwise_cons h hm)
    rw [patternMask_cons, positionBit_xor, positionBit_positionMask, ih h.of_cons]
    by_cases hq : p = q
    · subst hq; simp [hp]
    · simp [hq, Ne.symm hq]

/-- Two words with the same positions set are equal (00_scope.md R9). -/
theorem eq_of_positionBit_eq {u v : Word23} (h : ∀ q : Position, positionBit u q = positionBit v q) : u = v := by
  apply BitVec.eq_of_getLsbD_eq
  intro k hk
  have := h ⟨22 - k, by omega⟩
  simpa only [positionBit, show 22 - (22 - k) = k by omega] using this

theorem patternMask_injective {P Q : ErrorPattern} (hP : P.Pairwise (· < ·)) (hQ : Q.Pairwise (· < ·))
    (h : patternMask P = patternMask Q) : P = Q := by
  apply List.Perm.eq_of_pairwise (le := (· < ·)) (fun a b _ _ h1 h2 => absurd h1 (lt_asymm h2)) hP hQ
  rw [List.perm_ext_iff_of_nodup (hP.imp ne_of_lt) (hQ.imp ne_of_lt)]
  intro q
  have := positionBit_patternMask hP q
  rw [h, positionBit_patternMask hQ q] at this
  simpa using this.symm

/-- Every word is the mask of a pattern, its set positions in ascending order. -/
theorem exists_pattern (e : Word23) : ∃ P : ErrorPattern, P.Pairwise (· < ·) ∧ patternMask P = e := by
  have hp : (positions.filter (positionBit e)).Pairwise (· < ·) := List.Pairwise.filter _ (by decide)
  refine ⟨_, hp, eq_of_positionBit_eq fun q => ?_⟩
  rw [positionBit_patternMask hp]
  simp [mem_positions]

/-- The set bits of a word, counted by position. -/
theorem popcount_eq_countP_positions (w : Word23) : popcount w = positions.countP (positionBit w) := by
  have hm : positions.map (fun q : Position => q.rev) = (List.finRange 23).reverse := by decide
  calc popcount w = (List.finRange 23).reverse.countP fun k => w.getLsbD k.val := by rw [List.countP_reverse]; rfl
    _ = (positions.map fun q : Position => q.rev).countP fun k => w.getLsbD k.val := by rw [hm]
    _ = positions.countP (positionBit w) := by
      rw [List.countP_map]
      congr 1
      funext q
      simp only [Function.comp, Fin.val_rev, positionBit, show 23 - (q.val + 1) = 22 - q.val by omega]

/-- The weight of a pattern is the weight of its mask. -/
theorem popcount_patternMask {P : ErrorPattern} (h : P.Pairwise (· < ·)) : popcount (patternMask P) = P.length := by
  have hb : positionBit (patternMask P) = fun q => decide (q ∈ P) := funext (positionBit_patternMask h)
  rw [popcount_eq_countP_positions, List.countP_eq_length_filter, hb]
  have hp : List.Perm (positions.filter fun q => decide (q ∈ P)) P := by
    rw [List.perm_ext_iff_of_nodup (List.Nodup.filter _ (show positions.Nodup from List.nodup_finRange 23)) (h.imp ne_of_lt)]
    intro a
    simp [mem_positions]
  exact hp.length_eq

end Sys2Proof.Machine
end

