-- ==== Sys2Proof/Laws/PerInstr.lean ====
section
/-! SUPPORT. A statement about every instruction as syntax, one lemma per constructor: its encoded word carries its opcode and its
operand field where 30_encoding.md R61 puts them. -/

namespace Sys2Proof.Laws.Fields

def Statement (i : Instr) : Prop :=
  reqOpField (encodeRequest i) = i.opcode ∧ reqArgField (encodeRequest i) = i.operandField

theorem encode (data : DataWord) : Statement (.encode data) := ⟨reqOpField_joinRequest _ _, reqArgField_joinRequest _ _⟩
theorem syndrome (received : Word23) : Statement (.syndrome received) := ⟨reqOpField_joinRequest _ _, reqArgField_joinRequest _ _⟩
theorem correct (received : Word23) : Statement (.correct received) := ⟨reqOpField_joinRequest _ _, reqArgField_joinRequest _ _⟩
theorem decode (received : Word23) : Statement (.decode received) := ⟨reqOpField_joinRequest _ _, reqArgField_joinRequest _ _⟩
theorem encodeInvalid (zero : Row11) (data : DataWord) : Statement (.encodeInvalid zero data) :=
  ⟨reqOpField_joinRequest _ _, reqArgField_joinRequest _ _⟩

end Sys2Proof.Laws.Fields
end

