-- ==== Sys2Proof/Laws/Reference.lean ====
section
/-! SUPPORT. The design-time checks: the identity block of every `H` (40_matrix_tables.md R93), and `G_REF` by enumeration (R101), on
natural numbers, which the kernel evaluates cheaply: the weights of its 4096 codewords, `WF_G` from them, and the syndromes of the 2048
patterns of weight at most 3. -/

namespace Sys2Proof.Machine

/-- The self-consistency check of R93 holds by construction. -/
@[simp] theorem identityBlock_eq_true (G : GenMatrix) : identityBlock G = true := by simp [identityBlock]

/-- All XORs of a choice of rows. -/
def sums : List Nat → List Nat
  | [] => [0]
  | r :: rs => sums rs ++ (sums rs).map fun x => r ^^^ x

/-- The number of set bits among the low `k` bits of a number. -/
def popNat : Nat → Nat → Nat
  | 0, _ => 0
  | k + 1, n => n % 2 + popNat k (n / 2)

theorem popNat_eq (k n : Nat) : (List.finRange k).countP (fun i => n.testBit i.val) = popNat k n := by
  induction k generalizing n with
  | zero => rfl
  | succ k ih =>
    rw [List.finRange_succ, List.countP_cons, List.countP_map, popNat, ← ih (n / 2)]
    have h : (fun i : Fin (k + 1) => n.testBit i.val) ∘ Fin.succ = fun i : Fin k => (n / 2).testBit i.val := by
      funext i; simp [Nat.testBit_succ]
    rw [h, Nat.add_comm]
    congr 1
    rcases Nat.mod_two_eq_zero_or_one n with h | h <;> simp [Nat.testBit_zero, h]

theorem popcount_eq_popNat {n : Nat} (v : BitVec n) : popcount v = popNat n v.toNat := popNat_eq n v.toNat

/-- The sums in the order of the data words that choose them, the first row for the most significant bit. -/
def sumOf : List Nat → Nat → Nat
  | [], _ => 0
  | r :: rs, n => if n.testBit rs.length then r ^^^ sumOf rs n else sumOf rs n

theorem sumOf_congr (rs : List Nat) {m n : Nat} (h : ∀ k < rs.length, m.testBit k = n.testBit k) : sumOf rs m = sumOf rs n := by
  induction rs with
  | nil => rfl
  | cons r rs ih =>
    rw [sumOf, sumOf, h rs.length (by simp), ih fun k hk => h k (by simp; omega)]

theorem sums_eq (rs : List Nat) : sums rs = (List.range (2 ^ rs.length)).map (sumOf rs) := by
  induction rs with
  | nil => rfl
  | cons r rs ih =>
    rw [sums, ih, List.length_cons, Nat.pow_succ, Nat.mul_two, List.range_add, List.map_append, List.map_map, List.map_map]
    congr 1
    · refine List.map_congr_left fun n hn => ?_
      have hn : n < 2 ^ rs.length := by simpa using hn
      simp [sumOf, Nat.testBit_lt_two_pow hn]
    · refine List.map_congr_left fun n hn => ?_
      have hn : n < 2 ^ rs.length := by simpa using hn
      have hb : (2 ^ rs.length + n).testBit rs.length = true := by
        rw [Nat.testBit_two_pow_add_eq, Nat.testBit_lt_two_pow hn]; rfl
      simp only [Function.comp, sumOf, hb, if_true]
      congr 1
      exact sumOf_congr rs fun k hk => by rw [Nat.testBit_two_pow_add_gt hk]

theorem toNat_xorReduce_rows (row : Fin 12 → Word23) (d : DataWord) :
    (xorReduce ((List.finRange 12).map fun j => bif dataBit d j then row j else 0#23)).toNat =
      sumOf ((List.finRange 12).map fun j => (row j).toNat) d.toNat := by
  have hl : List.finRange 12 = [0, 1, 2, 3, 4, 5, 6, 7, 8, 9, 10, 11] := by decide
  have step : ∀ (b : Bool) (v : Word23) (w : Word23), ((bif b then v else 0#23) ^^^ w).toNat = if b then v.toNat ^^^ w.toNat else w.toNat := by
    intro b v w; cases b <;> simp
  rw [hl]
  simp only [List.map_cons, List.map_nil, xorReduce_cons, xorReduce_nil, step, sumOf, List.length_cons, List.length_nil, dataBit, BitVec.getLsbD]
  simp

/-- The word with only data bit j set, and its row of parity (41_encoder.md R110, corner cases). -/
def generatorRow (G : GenMatrix) (j : Fin 12) : Word23 := joinFields (1#12 <<< (11 - j.val)) G[j]

theorem joinFields_zero : joinFields 0#12 0#11 = 0#23 := by decide

/-- A data word is the XOR of its bits. -/
theorem data_eq_xorReduce (d : DataWord) :
    xorReduce ((List.finRange 12).map fun j => bif dataBit d j then 1#12 <<< (11 - j.val) else 0#12) = d := by
  have hl : List.finRange 12 = [0, 1, 2, 3, 4, 5, 6, 7, 8, 9, 10, 11] := by decide
  apply BitVec.eq_of_getLsbD_eq
  intro k hk
  rw [getLsbD_xorReduce, List.foldl_map, hl]
  have hb : ∀ (b : Bool) (v : DataWord), (bif b then v else 0#12).getLsbD k = (b && v.getLsbD k) := by
    intro b v; cases b <;> simp
  simp only [hb, dataBit]
  interval_cases k <;> simp

/-- A codeword is the XOR of the generator rows of its data bits. -/
theorem encodeWord_eq_xorReduce (G : GenMatrix) (d : DataWord) :
    encodeWord G d = xorReduce ((List.finRange 12).map fun j => bif dataBit d j then generatorRow G j else 0#23) := by
  have general : ∀ l : List (Fin 12),
      joinFields (xorReduce (l.map fun j => bif dataBit d j then 1#12 <<< (11 - j.val) else 0#12))
        (xorReduce (l.map fun j => selectRow (dataBit d j) G[j])) =
      xorReduce (l.map fun j => bif dataBit d j then generatorRow G j else 0#23) := by
    intro l
    induction l with
    | nil => exact joinFields_zero
    | cons j l ih =>
      simp only [List.map_cons, xorReduce_cons, joinFields_xor, ih]
      congr 1
      cases dataBit d j
      · exact joinFields_zero
      · rfl
  rw [← general, data_eq_xorReduce]
  rfl

/-- The generator rows of `G_REF` as numbers. -/
theorem generatorRows_gRef : ((List.finRange 12).map fun j => (generatorRow gRef j).toNat) =
    [0x40063A, 0x20031D, 0x1007B4, 0x0803DA, 0x0401ED, 0x0206CC, 0x010366, 0x0081B3, 0x0046E3, 0x00254B, 0x00149F, 0x000C75] := by
  decide

/-- The codewords of `G` as numbers, in the order of their data words. -/
theorem codewords_toNat (G : GenMatrix) :
    (codewords G).map BitVec.toNat = sums ((List.finRange 12).map fun j => (generatorRow G j).toNat) := by
  rw [sums_eq, codewords, List.map_map]
  simp only [List.length_map, List.length_finRange]
  refine List.map_congr_left fun n hn => ?_
  have hn : n < 4096 := by simpa using hn
  simp [encodeWord_eq_xorReduce, toNat_xorReduce_rows, Nat.mod_eq_of_lt hn]

/-- How often each value occurs in a list, as the digits of one number. -/
def tally (base : Nat) (ws : List Nat) : Nat := (ws.map fun w => base ^ w).sum

theorem ofDigits_map_range (b m : Nat) (f : Nat → Nat) :
    Nat.ofDigits b ((List.range m).map f) = ∑ k ∈ Finset.range m, b ^ k * f k := by
  induction m with
  | zero => simp
  | succ m ih =>
    rw [List.range_succ, List.map_append, Nat.ofDigits_append, ih, Finset.sum_range_succ]
    simp

theorem ofDigits_counts (b m : Nat) (ws : List Nat) (h : ∀ w ∈ ws, w < m) :
    Nat.ofDigits b ((List.range m).map fun k => ws.count k) = tally b ws := by
  rw [ofDigits_map_range]
  induction ws with
  | nil => simp [tally]
  | cons w ws ih =>
    have ih := ih fun v hv => h v (by simp [hv])
    have hw : w < m := h w (by simp)
    simp only [List.count_cons, Nat.mul_add, Finset.sum_add_distrib, ih, tally, List.map_cons, List.sum_cons]
    simp [hw, Nat.add_comm]

theorem counts_eq_of_tally (b : Nat) (hb : 1 < b) (ws digits : List Nat) (hw : ∀ w ∈ ws, w < digits.length) (hlen : ws.length < b)
    (hd : ∀ d ∈ digits, d < b) (h : tally b ws = Nat.ofDigits b digits) :
    (List.range digits.length).map (fun k => ws.count k) = digits := by
  refine Nat.ofDigits_inj_of_len_eq hb (by simp) (fun c hc => ?_) hd ((ofDigits_counts b _ ws hw).trans h)
  obtain ⟨k, -, rfl⟩ := List.mem_map.mp hc
  exact lt_of_le_of_lt List.count_le_length hlen

/-- The one long evaluation: the weights of the 4096 codewords. -/
theorem tally_gRef_heavy :
    tally 8192 ((sums [0x40063A, 0x20031D, 0x1007B4, 0x0803DA, 0x0401ED, 0x0206CC, 0x010366, 0x0081B3, 0x0046E3, 0x00254B, 0x00149F,
      0x000C75]).map (popNat 23)) =
    Nat.ofDigits 8192 [1, 0, 0, 0, 0, 0, 0, 253, 506, 0, 0, 1288, 1288, 0, 0, 506, 253, 0, 0, 0, 0, 0, 0, 1] := by
  decide +kernel

theorem popcount_le {n : Nat} (v : BitVec n) : popcount v ≤ n := by
  simpa [popcount] using List.countP_le_length (p := fun k : Fin n => v.getLsbD k.val) (l := List.finRange n)

/-- The weight distribution of `G_REF` (R101). -/
theorem gRef_weightDistribution :
    weightDistribution gRef =
      [1, 0, 0, 0, 0, 0, 0, 253, 506, 0, 0, 1288, 1288, 0, 0, 506, 253, 0, 0, 0, 0, 0, 0, 1] := by
  have hw : (codewords gRef).map popcount = (sums [0x40063A, 0x20031D, 0x1007B4, 0x0803DA, 0x0401ED, 0x0206CC, 0x010366, 0x0081B3,
      0x0046E3, 0x00254B, 0x00149F, 0x000C75]).map (popNat 23) := by
    rw [← generatorRows_gRef, ← codewords_toNat, List.map_map]
    exact List.map_congr_left fun c _ => popcount_eq_popNat c
  refine Eq.trans ?_ (counts_eq_of_tally 8192 (by norm_num) ((codewords gRef).map popcount)
    [1, 0, 0, 0, 0, 0, 0, 253, 506, 0, 0, 1288, 1288, 0, 0, 506, 253, 0, 0, 0, 0, 0, 0, 1] ?_ ?_ (by decide)
    (by rw [hw]; exact tally_gRef_heavy))
  · refine List.map_congr_left fun w _ => ?_
    rw [List.count, List.countP_map]
    rfl
  · simp only [List.mem_map, forall_exists_index, and_imp, forall_apply_eq_imp_iff₂]
    exact fun c _ => lt_of_le_of_lt (popcount_le c) (by decide)
  · simp [codewords]

/-- No codeword of weight 1 to 6 is all that `WF_G` asks. -/
theorem wfG_of_weightDistribution (G : GenMatrix) (h : ∀ w, 1 ≤ w → w < 7 → (weightDistribution G)[w]? = some 0) : wfG G = true := by
  apply List.all_eq_true.mpr
  intro n hn
  have hn : n < 4095 := by simpa using hn
  refine decide_eq_true (Nat.le_of_not_lt fun hlt => ?_)
  generalize hc : encodeWord G (BitVec.ofNat 12 (n + 1)) = c at hlt
  have hm : c ∈ codewords G := List.mem_map.mpr ⟨n + 1, by simp; omega, hc⟩
  rcases Nat.eq_zero_or_pos (popcount c) with h0 | hpos
  · have h0 : joinFields (BitVec.ofNat 12 (n + 1)) (parity G (BitVec.ofNat 12 (n + 1))) = joinFields 0#12 0#11 := by
      rw [joinFields_zero, ← (popcount_eq_zero_iff c).mp h0]; exact hc
    have := congrArg BitVec.toNat (joinFields_inj h0).1
    simp at this
    omega
  · have hz := h (popcount c) hpos hlt
    rw [weightDistribution, List.getElem?_map, List.getElem?_range (by omega)] at hz
    simp only [Option.map_some, Option.some.injEq, List.countP_eq_zero, beq_iff_eq] at hz
    exact hz c hm rfl

/-- `G_REF` satisfies `WF_G` (R101): by its weight distribution no codeword has weight 1 to 6. -/
theorem gRef_wellFormed : wfG gRef = true :=
  wfG_of_weightDistribution gRef fun w h1 h2 => by
    rw [gRef_weightDistribution]
    interval_cases w <;> rfl

/-! The syndromes of the patterns of weight at most 3. -/

/-- The XORs of `k` rows, the rows taken in order. -/
def choices : Nat → List Nat → List Nat
  | 0, _ => [0]
  | _ + 1, [] => []
  | k + 1, r :: rs => ((choices k rs).map fun x => r ^^^ x) ++ choices (k + 1) rs

/-- Each XOR of `k` rows is that of `k` things in their order. -/
theorem exists_sublist_of_mem_choices {α : Type} (row : α → Row11) (l : List α) (k n : Nat)
    (h : n ∈ choices k (l.map fun p => (row p).toNat)) :
    ∃ P : List α, P.Sublist l ∧ P.length = k ∧ (xorReduce (P.map row)).toNat = n := by
  induction l generalizing k n with
  | nil =>
    cases k with
    | zero => exact ⟨[], by simp, rfl, by simpa [choices, eq_comm] using h⟩
    | succ k => simp [choices] at h
  | cons p l ih =>
    cases k with
    | zero => exact ⟨[], by simp, rfl, by simpa [choices, eq_comm] using h⟩
    | succ k =>
      rcases List.mem_append.mp h with h | h
      · obtain ⟨m, hm, rfl⟩ := List.mem_map.mp h
        obtain ⟨P, hP, hl, hx⟩ := ih k m hm
        exact ⟨p :: P, hP.cons_cons p, by simp [hl], by simp [hx]⟩
      · obtain ⟨P, hP, hl, hx⟩ := ih (k + 1) n h
        exact ⟨P, hP.cons p, hl, hx⟩

/-- The set of the numbers in a list, as the bits of one number. -/
def bitSet (l : List Nat) : Nat := l.foldr (fun n acc => (1 <<< n) ||| acc) 0

theorem mem_of_testBit_bitSet {l : List Nat} {n : Nat} (h : (bitSet l).testBit n = true) : n ∈ l := by
  induction l with
  | nil => simp [bitSet] at h
  | cons m l ih =>
    rw [bitSet, List.foldr_cons, Nat.testBit_or, Bool.or_eq_true, Nat.one_shiftLeft, Nat.testBit_two_pow] at h
    rcases h with h | h
    · simp [of_decide_eq_true h]
    · exact List.mem_cons_of_mem _ (ih h)

theorem rows_gRef : positions.map (fun p => (hRow gRef p).toNat) =
    [0x63A, 0x31D, 0x7B4, 0x3DA, 0x1ED, 0x6CC, 0x366, 0x1B3, 0x6E3, 0x54B, 0x49F, 0x475,
      0x400, 0x200, 0x100, 0x080, 0x040, 0x020, 0x010, 0x008, 0x004, 0x002, 0x001] := by decide

/-- The one long evaluation: the XORs of at most three of the 23 rows are all the 2048 values. -/
theorem bitSet_gRef_heavy :
    bitSet ([0, 1, 2, 3].flatMap fun k => choices k
      [0x63A, 0x31D, 0x7B4, 0x3DA, 0x1ED, 0x6CC, 0x366, 0x1B3, 0x6E3, 0x54B, 0x49F, 0x475,
        0x400, 0x200, 0x100, 0x080, 0x040, 0x020, 0x010, 0x008, 0x004, 0x002, 0x001]) = 2 ^ 2048 - 1 := by
  decide +kernel

/-- The 2048 patterns of weight at most 3 have 2048 distinct syndromes with `G_REF` (R101), because every 11-bit value is one of them. -/
theorem gRef_distinctSyndromes : distinctSyndromes gRef = true := by
  refine decide_eq_true ?_
  have hmem : ∀ n < 2048, n ∈ (allPatterns.map (patternSyndrome gRef)).map BitVec.toNat := by
    intro n hn
    have hb : (bitSet ([0, 1, 2, 3].flatMap fun k => choices k (positions.map fun p => (hRow gRef p).toNat))).testBit n = true := by
      rw [rows_gRef, bitSet_gRef_heavy, Nat.testBit_two_pow_sub_one]
      exact decide_eq_true hn
    obtain ⟨k, hk, hc⟩ := List.mem_flatMap.mp (mem_of_testBit_bitSet hb)
    obtain ⟨P, hP, hl, hx⟩ := exists_sublist_of_mem_choices (hRow gRef) positions k n hc
    have hsorted : P.Pairwise (· < ·) := List.Pairwise.sublist hP (List.pairwise_lt_finRange 23)
    have hk : k ≤ 3 := by simp at hk; omega
    exact List.mem_map.mpr ⟨_, List.mem_map.mpr ⟨P, mem_allPatterns.mpr ⟨hsorted, by omega⟩, rfl⟩, hx⟩
  have hsub : (List.range 2048).Subperm ((allPatterns.map (patternSyndrome gRef)).map BitVec.toNat) :=
    List.nodup_range.subperm fun n hn => hmem n (by simpa using hn)
  have hperm := hsub.perm_of_length_le (by simp [allPatterns_length])
  exact (hperm.nodup List.nodup_range).of_map _

end Sys2Proof.Machine
end

