-- ==== Sys2Proof/Tests/Slice0.lean ====
section
/-! SUPPORT. Tests. Expected values are the spec's: the patterns of 30_encoding.md, the vectors of 95_test_vectors.md (their numbers in
the names), the tables of 40_matrix_tables.md. The `witness_` theorems show states and operands that meet the hypotheses of the
statements. -/

namespace Sys2Proof.Tests

open Sys2Proof.Machine

/-- A block with matrix `G` and request `w` on its ports. -/
def block (G : GenMatrix) (w : ReqWord) : State := (State.resetWith { G := G }).present w

/-- The response word after one step. -/
def answer (G : GenMatrix) (w : ReqWord) : Option RspWord :=
  match step (block G w) with
  | .next t => some t.rsp.word
  | _ => none

/-- The matrices of 95_test_vectors.md section 4. -/
def zeroG : GenMatrix := Vector.replicate 12 0x000#11
def onesG : GenMatrix := Vector.replicate 12 0x7FF#11

/-- With the zero matrix every row of `H` has at most one set bit, so no candidate reaches a syndrome with four (R139's example). -/
theorem zeroG_uncorrectable (r : Word23) (h : popcount (syndromeOf zeroG r) = 4) : correctWord zeroG r = uncorrectableResult r := by
  have hH : ∀ p : Position, popcount (hRow zeroG p) ≤ 1 := by decide
  have hP : ∀ P : ErrorPattern, popcount (patternSyndrome zeroG P) ≤ P.length := by
    intro P
    induction P with
    | nil => simp [patternSyndrome]
    | cons p P ih =>
      have := popcount_xor_le (hRow zeroG p) (patternSyndrome zeroG P)
      have := hH p
      simp only [patternSyndrome, List.map_cons, xorReduce_cons, List.length_cons] at *
      omega
  rcases correctWord_cases zeroG r with ⟨h0, -⟩ | ⟨-, P, hs, -⟩ | ⟨-, -, hc⟩
  · rw [h0, popcount_zero] at h; omega
  · obtain ⟨hS, -, -, hl⟩ := searchPattern_some hs
    have := hP P
    rw [hS, h] at this; omega
  · exact hc

/-! ## Well-formedness -/

theorem test_encodeInvalid_with_clear_zero_is_illFormed : (Instr.encodeInvalid 0x000 0xABC).wellFormed = false := by decide

/-! ## Decoding: words written out from the patterns of 30_encoding.md R63, R64 and the rows of spec/opcode_table.json -/

theorem test_decode_ENCODE : decodeTableWord 32 0b00_00000000000_101010111100 = some (.encode 0xABC) := by decide
theorem test_decode_SYNDROME : decodeTableWord 32 0b01_10101011110000100011110 = some (.syndrome 0x55E11E) := by decide
theorem test_decode_CORRECT : decodeTableWord 32 0b10_10101011110000100011111 = some (.correct 0x55E11F) := by decide
theorem test_decode_DECODE : decodeTableWord 32 0b11_11110000000000000000000 = some (.decode 0x780000) := by decide
theorem test_decode_ENCODE_invalid : decodeTableWord 32 0b00_00000000001_101010111100 = some (.encodeInvalid 0x001 0xABC) := by decide
theorem test_decode_wider_than_request : decodeNumber 32 0x2000000 = .error .widerThanRequest := by rfl
theorem test_encode_words :
    encodeRequest (.encode 0xABC) = 0x0000ABC ∧ encodeRequest (.syndrome 0x55E11E) = 0x0D5E11E ∧
    encodeRequest (.correct 0x55E11F) = 0x155E11F ∧ encodeRequest (.decode 0x780000) = 0x1F80000 ∧
    encodeRequest (.encodeInvalid 0x001 0xABC) = 0x0001ABC := by decide

/-! ## The matrices (40_matrix_tables.md R99, R100) -/

theorem test_H_REF : positions.map (hRow gRef) =
    [0x63A, 0x31D, 0x7B4, 0x3DA, 0x1ED, 0x6CC, 0x366, 0x1B3, 0x6E3, 0x54B, 0x49F, 0x475,
      0x400, 0x200, 0x100, 0x080, 0x040, 0x020, 0x010, 0x008, 0x004, 0x002, 0x001] := by decide

/-- R93 by evaluation, for `G_REF` and for an ill-formed `G`. -/
theorem test_identityBlock : identityBlock gRef = true ∧ identityBlock zeroG = true := by decide

/-! ## The operations, one step each -/

theorem test_V3_7_ENCODE : answer gRef 0x0000ABC = some 0x055E11E := by decide
theorem test_V4_1_ENCODE_zero_matrix : answer zeroG 0x0000ABC = some 0x055E000 := by decide
theorem test_V3_25_SYNDROME : answer gRef 0x0923456 = some 0x00004FA := by decide
theorem test_V4_9_SYNDROME_ones_matrix : answer onesG 0x0800800 = some 0x00007FF := by decide
/-- Depth 3, entered after depths 1 and 2 have failed: {0, 1, 2}. -/
theorem test_V3_39_CORRECT : answer gRef 0x125E11E = some 0x3D5E11E := by decide +kernel
/-- First match in the fixed order: the pair {0, 22} (R133). -/
theorem test_V4_8_CORRECT_ones_matrix : answer onesG 0x10007FE = some 0x34007FF := by decide +kernel
theorem test_V3_36_DECODE : answer gRef 0x195E11F = some 0x3000ABC := by decide +kernel
/-- State 5, reported with the leading bits of the unchanged word (R136, R150). -/
theorem test_V4_5_DECODE_zero_matrix : answer zeroG 0x1D5E00F = some 0x4000ABC := by
  show some (searchResponse (zext23 (dataField (correctWord zeroG 0x55E00F).value)) (correctWord zeroG 0x55E00F).flipped
    (correctWord zeroG 0x55E00F).uncorrectable).word = _
  rw [zeroG_uncorrectable 0x55E00F (by decide)]
  decide
theorem test_V2_9_ENCODE_invalid : ∃ t, step (block gRef 0x0001ABC) = .next t ∧ t.rsp.invalidWidth = true := ⟨_, rfl, rfl⟩
theorem test_V2_12_ENCODE_invalid_smallest : ∃ t, step (block gRef 0x0001000) = .next t ∧ t.rsp.outcome = .invalidWidth :=
  ⟨_, rfl, rfl⟩

/-! ## Reset and the host's word -/

/-- V2.1 is the request that stands on the ports after reset (10_state.md R30, log 5). -/
theorem test_reset_answers_V2_1 : answer gRef 0x0000000 = some 0x0000000 ∧ State.reset.rsp.word = 0x0000000 := by decide
theorem test_withFetchWord_presents : State.reset.withFetchWord 32 0x155E11F = block gRef 0x155E11F := by decide

/-- The response ports follow a presented request before any step (10_state.md R29): the worked example of 42_syndrome.md R120. -/
theorem test_ports_follow_the_request : (State.reset.present 0x0C00000).rspWord = 0x000063A ∧ State.reset.rspWord = 0x0000000 := by
  decide

/-! ## Witnesses -/

theorem witness_wellFormed_of_each_row :
    (Instr.encode 0xFFF).wellFormed = true ∧ (Instr.syndrome 0x7FFFFF).wellFormed = true ∧
    (Instr.correct 0x7FFFFF).wellFormed = true ∧ (Instr.decode 0x7FFFFF).wellFormed = true ∧
    (Instr.encodeInvalid 0x001 0x000).wellFormed = true ∧ (Instr.encodeInvalid 0x7FF 0xFFF).wellFormed = true := by decide

theorem witness_encoded_request :
    (Instr.encodeInvalid 0x7FF 0xFFF).wellFormed = true ∧ encodeRequest (.encodeInvalid 0x7FF 0xFFF) = 0x07FFFFF := by decide

theorem witness_table_rows :
    (0x0000000#25 &&& 0x1FFF000#25 = 0x0000000#25 ∧ 0x0000FFF#25 &&& 0x1FFF000#25 = 0x0000000#25) ∧
    (0x0800000#25 &&& 0x1800000#25 = 0x0800000#25 ∧ 0x0FFFFFF#25 &&& 0x1800000#25 = 0x0800000#25) ∧
    (0x1000000#25 &&& 0x1800000#25 = 0x1000000#25 ∧ 0x17FFFFF#25 &&& 0x1800000#25 = 0x1000000#25) ∧
    (0x1800000#25 &&& 0x1800000#25 = 0x1800000#25 ∧ 0x1FFFFFF#25 &&& 0x1800000#25 = 0x1800000#25) ∧
    (0x0001000#25 &&& 0x1FFF000#25 ≠ 0x0000000#25 ∧ 0x0001000#25 &&& 0x1800000#25 = 0x0000000#25) ∧
    (0x07FFFFF#25 &&& 0x1FFF000#25 ≠ 0x0000000#25 ∧ 0x07FFFFF#25 &&& 0x1800000#25 = 0x0000000#25) := by decide

theorem witness_presented_word : decodeTableWord 32 0x1FFFFFF = some (.decode 0x7FFFFF) := by decide

theorem witness_exec_answers_next : ∃ t, exec (.encodeInvalid 0x001 0xABC) State.reset = .next t := ⟨_, rfl⟩

theorem witness_step_answers_next : ∃ t, step State.reset = .next t := ⟨_, rfl⟩

theorem witness_step_without_invalidWidth :
    ∃ t, step (block gRef 0x1000001) = .next t ∧ t.rsp.invalidWidth = false ∧ t.rsp.corrected = true := ⟨_, rfl, rfl, by decide⟩

theorem witness_narrow_results :
    (∃ t, step (block gRef 0x0FFFFFE) = .next t ∧ (block gRef 0x0FFFFFE).reqOp = 0b01#2) ∧
    (∃ t, step (block gRef 0x1FFFFFF) = .next t ∧ (block gRef 0x1FFFFFF).reqOp = 0b11#2) := ⟨⟨_, rfl, rfl⟩, ⟨_, rfl, rfl⟩⟩

theorem witness_zero_syndrome : syndromeOf State.reset.config.G 0x7FFFFF = 0#11 := by decide

/-- The least of twelve matching rows (V4.7), and the last position. -/
theorem witness_depth_one :
    (syndromeOf onesG 0x0007FF ≠ 0#11 ∧ hRow onesG 0 = syndromeOf onesG 0x0007FF ∧
      ∀ q : Fin 23, q < 0 → hRow onesG q ≠ syndromeOf onesG 0x0007FF) ∧
    (syndromeOf gRef 0x000001 ≠ 0#11 ∧ hRow gRef 22 = syndromeOf gRef 0x000001 ∧
      ∀ q : Fin 23, q < 22 → hRow gRef q ≠ syndromeOf gRef 0x000001) ∧ wfG gRef = true :=
  ⟨by decide, by decide, gRef_wellFormed⟩

/-- The first pair {0, 1}. -/
theorem witness_depth_two :
    syndromeOf gRef 0x600000 ≠ 0#11 ∧ (∀ p : Fin 23, hRow gRef p ≠ syndromeOf gRef 0x600000) ∧ (0 : Fin 23) < 1 ∧
    hRow gRef 0 ^^^ hRow gRef 1 = syndromeOf gRef 0x600000 ∧
    ∀ a b : Fin 23, a < b → (a < 0 ∨ (a = 0 ∧ b < 1)) → hRow gRef a ^^^ hRow gRef b ≠ syndromeOf gRef 0x600000 := by
  refine ⟨by decide, by decide, by decide, by decide, fun a b hab h => ?_⟩
  simp only [Fin.lt_def, Fin.ext_iff] at hab h
  exact absurd h (by simp; omega)

/-- The first triple {0, 1, 2} (V3.39's pattern). -/
theorem witness_depth_three :
    syndromeOf gRef 0x700000 ≠ 0#11 ∧ (∀ p : Fin 23, hRow gRef p ≠ syndromeOf gRef 0x700000) ∧
    (∀ a b : Fin 23, a < b → hRow gRef a ^^^ hRow gRef b ≠ syndromeOf gRef 0x700000) ∧ (0 : Fin 23) < 1 ∧ (1 : Fin 23) < 2 ∧
    hRow gRef 0 ^^^ hRow gRef 1 ^^^ hRow gRef 2 = syndromeOf gRef 0x700000 ∧
    ∀ a b c : Fin 23, a < b → b < c → (a < 0 ∨ (a = 0 ∧ (b < 1 ∨ (b = 1 ∧ c < 2)))) →
      hRow gRef a ^^^ hRow gRef b ^^^ hRow gRef c ≠ syndromeOf gRef 0x700000 := by
  refine ⟨by decide, by decide, by decide +kernel, by decide, by decide, by decide, fun a b c hab hbc h => ?_⟩
  simp only [Fin.lt_def, Fin.ext_iff] at hab hbc h
  exact absurd h (by simp; omega)

/-- Rule R139's example of an ill-formed `G` (V4.4): every row of `H` has at most one set bit, and the syndrome has four. -/
theorem witness_failed_search :
    syndromeOf zeroG 0x00000F ≠ 0#11 ∧ (∀ p : Fin 23, hRow zeroG p ≠ syndromeOf zeroG 0x00000F) ∧
    (∀ a b : Fin 23, a < b → hRow zeroG a ^^^ hRow zeroG b ≠ syndromeOf zeroG 0x00000F) ∧
    (∀ a b c : Fin 23, a < b → b < c →
      hRow zeroG a ^^^ hRow zeroG b ^^^ hRow zeroG c ≠ syndromeOf zeroG 0x00000F) := by
  have hS : popcount (syndromeOf zeroG 0x00000F) = 4 := by decide
  have hH : ∀ p : Fin 23, popcount (hRow zeroG p) ≤ 1 := by decide
  refine ⟨by decide, fun p he => ?_, fun a b _ he => ?_, fun a b c _ _ he => ?_⟩
  · have := hH p
    rw [he] at this; omega
  · have := popcount_xor_le (hRow zeroG a) (hRow zeroG b)
    have := hH a; have := hH b
    rw [he] at *; omega
  · have := popcount_xor_le (hRow zeroG a ^^^ hRow zeroG b) (hRow zeroG c)
    have := popcount_xor_le (hRow zeroG a) (hRow zeroG b)
    have := hH a; have := hH b; have := hH c
    rw [he] at *; omega

theorem witness_uncorrectable_word : (correctWord zeroG 0x00000F).uncorrectable = true := by
  rw [zeroG_uncorrectable 0x00000F (by decide)]; rfl

theorem witness_step_uncorrectable :
    ∃ t, step (block zeroG 0x100000F) = .next t ∧ t.rsp.invalidWidth = false ∧ t.rsp.uncorrectable = true := by
  have hd : decodeRequest (block zeroG 0x100000F).request = .correct 0x00000F := by decide
  have hG : (block zeroG 0x100000F).config.G = zeroG := rfl
  refine ⟨_, step_eq_next_iff.mpr rfl, ?_, ?_⟩
  · rw [hd]; generalize block zeroG 0x100000F = s; rfl
  · rw [hd, ← witness_uncorrectable_word, ← hG]; generalize block zeroG 0x100000F = s; rfl

/-- Both premises of DECODE's last clause. -/
theorem witness_leading_bits_unchanged :
    syndromeOf gRef 0x55E11E = 0#11 ∧
    ∃ t, exec (.correct 0x00000F) (block zeroG 0) = .next t ∧ t.rsp.uncorrectable = true := by
  have hG : (block zeroG 0).config.G = zeroG := rfl
  refine ⟨by decide, _, (exec_eq_respond _ _).trans (respond_eq_next_iff.mpr rfl), ?_⟩
  rw [← witness_uncorrectable_word, ← hG]; generalize block zeroG 0 = s; rfl

/-- A well-formed `G` (40_matrix_tables.md R94, R101), with operands for the statements that suppose one: patterns of weight 0 and 3,
error masks of weight 3 and 4, six distinct rows. -/
theorem witness_well_formed_block :
    wfG State.reset.config.G = true ∧ isPattern [] ∧ isPattern [20, 21, 22] ∧ popcount (0x000007 : Word23) = 3 ∧
    popcount (0x780000 : Word23) = 4 ∧ ([0, 1, 2, 3, 4, 5] : List (Fin 12)).Nodup := by
  refine ⟨gRef_wellFormed, ?_⟩
  decide

/-- A state that meets the invariant. -/
theorem witness_invariant : (block gRef 0x1780000).inv = true ∧ ∃ t, step (block gRef 0x1780000) = .next t := by
  have h : (block gRef 0x1780000).inv = (wfG State.reset.config.G && true) := rfl
  exact ⟨by rw [h, witness_well_formed_block.1]; rfl, _, rfl⟩

end Sys2Proof.Tests
end

section
/-! Proofs of the statements of 40_matrix_tables.md: `G` never changes, `H` and its check, `WF_G` as minimum distance 7, `G_REF`. -/

namespace Sys2Proof.Machine

/-! ## The matrix is kept -/

/-- No operation writes the configuration (10_state.md R23, R91). -/
theorem exec_keeps_config {i : Instr} {s t : State} (h : exec i s = .next t) : t.config = s.config := by
  rw [exec_eq_respond, respond_eq_next_iff] at h
  rw [h]

theorem step_keeps_config {s t : State} (h : step s = .next t) : t.config = s.config :=
  exec_keeps_config h

/-- Settles O14: a step is an operation, and presenting a request or resetting leaves the configuration in place. -/
theorem matrixNeverChanges : Obligations.MatrixNeverChanges := by
  refine ⟨fun i s t h => ?_, fun s t h => ?_, fun s w => ?_, fun s => ?_⟩
  · rw [exec_keeps_config h]
  · rw [step_keeps_config h]
  · rw [present_config]
  · rw [resetWith_config]

/-! ## The rows of `H` -/

/-- Settles O20: the two branches of `H`'s definition, one for the data positions and one for the parity positions. -/
theorem parityCheckMatrixFromG : Obligations.ParityCheckMatrixFromG := by
  refine fun G => ⟨fun p j hp => ?_, fun p i hp => ?_⟩
  · have hlt : p.val < 12 := hp ▸ j.isLt
    rw [hRow_of_lt G p hlt]
    simp [hp]
  · obtain rfl : p = Fin.natAdd 12 i := Fin.ext hp
    exact hRow_natAdd G i

/-- Settles O53: the identity block holds by construction, so it drops out of the two design-time checks. -/
theorem matrixSelfConsistency : Obligations.MatrixSelfConsistency := by
  refine fun G => ⟨hRow_natAdd G, identityBlock_eq_true G, ?_⟩
  rw [designChecks, identityBlock_eq_true, Bool.true_and]

/-! ## `WF_G` as minimum distance 7 -/

theorem encodeWord_xor (G : GenMatrix) (a b : DataWord) : encodeWord G (a ^^^ b) = encodeWord G a ^^^ encodeWord G b := by
  simp only [encodeWord, parity_xor, joinFields_xor]

@[simp] theorem encodeWord_zero (G : GenMatrix) : encodeWord G 0#12 = 0#23 := by
  simpa using encodeWord_xor G 0#12 0#12

/-- The data word can be read off its codeword (41_encoder.md R110). -/
theorem encodeWord_injective (G : GenMatrix) : Function.Injective (encodeWord G) :=
  fun _ _ h => (joinFields_inj h).1

/-- The check's 4095 evaluations reach every nonzero data word. -/
theorem wfG_iff (G : GenMatrix) : wfG G = true ↔ ∀ d : DataWord, d ≠ 0#12 → 7 ≤ popcount (encodeWord G d) := by
  simp only [wfG, List.all_eq_true, List.mem_range, decide_eq_true_eq]
  constructor
  · intro h d hd
    have hpos : d.toNat ≠ 0 := fun h0 => hd (BitVec.eq_of_toNat_eq h0)
    have hd' : BitVec.ofNat 12 (d.toNat - 1 + 1) = d := by
      rw [Nat.sub_add_cancel (Nat.pos_of_ne_zero hpos), BitVec.ofNat_toNat, BitVec.setWidth_eq]
    simpa only [hd'] using h (d.toNat - 1) (by omega)
  · intro h n hn
    exact h _ fun h0 => by simpa [Nat.mod_eq_of_lt (show n + 1 < 4096 by omega)] using congrArg BitVec.toNat h0

/-- The code is linear: the XOR of two codewords is a codeword, so its least nonzero weight is its least distance. -/
theorem minWeight_iff_minDistance (G : GenMatrix) (m : Nat) :
    (∀ d : DataWord, d ≠ 0#12 → m ≤ popcount (encodeWord G d)) ↔
      ∀ a b : DataWord, encodeWord G a ≠ encodeWord G b → m ≤ popcount (encodeWord G a ^^^ encodeWord G b) := by
  constructor
  · intro h a b hab
    have hne : a ^^^ b ≠ 0#12 := fun h0 => hab (congrArg (encodeWord G) (BitVec.xor_eq_zero_iff.mp h0))
    rw [← encodeWord_xor]
    exact h _ hne
  · intro h d hd
    simpa using h d 0#12 ((encodeWord_injective G).ne hd)

/-- Settles O39: the check reaches every nonzero data word, and by linearity weights are distances. -/
theorem wellFormedMatrixMeansDistanceSeven : Obligations.WellFormedMatrixMeansDistanceSeven :=
  fun G => ⟨wfG_iff G, (wfG_iff G).trans (minWeight_iff_minDistance G 7)⟩

/-! ## The reference matrix -/

/-- The all-ones word is a codeword of `G_REF`: each column of `G_REF` has an odd number of set bits (R102). -/
theorem encodeWord_gRef_allOnes : encodeWord gRef 0xFFF#12 = 0x7FFFFF#23 := by decide

/-- Settles O54, from the enumerations of the codewords and of the patterns' syndromes. -/
theorem referenceMatrixChecks : Obligations.ReferenceMatrixChecks :=
  ⟨gRef_wellFormed, gRef_weightDistribution, gRef_distinctSyndromes, encodeWord_gRef_allOnes⟩

end Sys2Proof.Machine
end

section
/-! Proofs of the statements of 43_error_search.md, states 1 to 4: the candidates stand in lexicographic order, so the first match of a
depth is its lexicographically least match; with a well-formed `G` no two patterns of weight at most 3 share a syndrome. -/

namespace Sys2Proof.Machine

/-! ## The candidates stand in lexicographic order -/

theorem positions_pairwise_lt : positions.Pairwise (· < ·) := List.pairwise_lt_finRange 23

theorem positionsAfter_pairwise_lt (i : Position) : (positionsAfter i).Pairwise (· < ·) :=
  positions_pairwise_lt.filter _

theorem candidates1_pairwise_lt : candidates1.Pairwise (· < ·) :=
  List.pairwise_map.mpr (positions_pairwise_lt.imp fun h => List.cons_lt_cons_iff.mpr (.inl h))

/-- The pairs with the same first position are ordered by their second, the others by their first (43_error_search.md R133). -/
theorem candidates2_pairwise_lt : candidates2.Pairwise (· < ·) := by
  refine List.pairwise_flatMap.mpr ⟨fun i _ => ?_, positions_pairwise_lt.imp fun {i i'} hi => ?_⟩
  · exact List.pairwise_map.mpr ((positionsAfter_pairwise_lt i).imp fun h => by simpa [List.cons_lt_cons_iff] using h)
  · simp [List.cons_lt_cons_iff, hi]

/-- The triples likewise, position after position (43_error_search.md R134). -/
theorem candidates3_pairwise_lt : candidates3.Pairwise (· < ·) := by
  refine List.pairwise_flatMap.mpr ⟨fun i _ => List.pairwise_flatMap.mpr ⟨fun j _ => ?_, ?_⟩,
    positions_pairwise_lt.imp fun {i i'} hi => ?_⟩
  · exact List.pairwise_map.mpr ((positionsAfter_pairwise_lt j).imp fun h => by simpa [List.cons_lt_cons_iff] using h)
  · exact (positionsAfter_pairwise_lt i).imp fun {j j'} hj => by simp [List.cons_lt_cons_iff, hj]
  · simp only [List.mem_flatMap, List.mem_map]
    rintro _ ⟨_, _, _, _, rfl⟩ _ ⟨_, _, _, _, rfl⟩
    exact List.cons_lt_cons_iff.mpr (.inl hi)

/-! ## The first match of an ordered list is its least match -/

theorem firstMatch_of_least {G : GenMatrix} {S : Row11} {c : List ErrorPattern} {P : ErrorPattern}
    (hc : c.Pairwise (· < ·)) (hP : P ∈ c) (hS : patternSyndrome G P = S)
    (hleast : ∀ Q ∈ c, Q < P → patternSyndrome G Q ≠ S) : firstMatch G S c = some P := by
  cases hf : firstMatch G S c with
  | none => exact absurd hS (firstMatch_eq_none.mp hf P hP)
  | some Q =>
    obtain ⟨hQ, before, after, rfl, hbefore⟩ := firstMatch_eq_some hf
    have hafter : ∀ R ∈ after, Q < R := (List.pairwise_cons.mp (List.pairwise_append.mp hc).2.1).1
    rcases List.mem_append.mp hP with hm | hm
    · exact absurd hS (hbefore P hm)
    · rcases List.mem_cons.mp hm with rfl | hm
      · rfl
      · exact absurd hQ (hleast Q (by simp) (hafter P hm))

@[simp] theorem patternSyndrome_nil (G : GenMatrix) : patternSyndrome G [] = 0#11 := rfl

@[simp] theorem patternSyndrome_cons (G : GenMatrix) (p : Position) (P : ErrorPattern) :
    patternSyndrome G (p :: P) = hRow G p ^^^ patternSyndrome G P := rfl

theorem firstMatch_candidates1_eq_none {G : GenMatrix} {S : Row11} :
    firstMatch G S candidates1 = none ↔ ∀ p, hRow G p ≠ S := by
  simp [firstMatch_eq_none, mem_candidates1]

theorem firstMatch_candidates2_eq_none {G : GenMatrix} {S : Row11} :
    firstMatch G S candidates2 = none ↔ ∀ a b, a < b → hRow G a ^^^ hRow G b ≠ S := by
  rw [firstMatch_eq_none]
  constructor
  · intro h a b hab
    simpa using h [a, b] (mem_candidates2.mpr ⟨a, b, hab, rfl⟩)
  · intro h P hP
    obtain ⟨a, b, hab, rfl⟩ := mem_candidates2.mp hP
    simpa using h a b hab

/-- Depth 1 finds the least matching position (43_error_search.md R132). -/
theorem firstMatch_candidates1_eq_some {G : GenMatrix} {S : Row11} {p : Position} (hS : hRow G p = S)
    (hleast : ∀ q, q < p → hRow G q ≠ S) : firstMatch G S candidates1 = some [p] := by
  refine firstMatch_of_least candidates1_pairwise_lt (mem_candidates1.mpr ⟨p, rfl⟩) (by simpa using hS) fun Q hQ hlt => ?_
  obtain ⟨q, rfl⟩ := mem_candidates1.mp hQ
  simpa using hleast q (by simpa [List.cons_lt_cons_iff] using hlt)

/-- Depth 2 finds the lexicographically first matching pair (43_error_search.md R133). -/
theorem firstMatch_candidates2_eq_some {G : GenMatrix} {S : Row11} {i j : Position} (hij : i < j)
    (hS : hRow G i ^^^ hRow G j = S)
    (hleast : ∀ a b, a < b → (a < i ∨ (a = i ∧ b < j)) → hRow G a ^^^ hRow G b ≠ S) :
    firstMatch G S candidates2 = some [i, j] := by
  refine firstMatch_of_least candidates2_pairwise_lt (mem_candidates2.mpr ⟨i, j, hij, rfl⟩) (by simpa using hS) fun Q hQ hlt => ?_
  obtain ⟨a, b, hab, rfl⟩ := mem_candidates2.mp hQ
  simpa using hleast a b hab (by simpa [List.cons_lt_cons_iff] using hlt)

/-- Depth 3 finds the lexicographically first matching triple (43_error_search.md R134). -/
theorem firstMatch_candidates3_eq_some {G : GenMatrix} {S : Row11} {i j k : Position} (hij : i < j) (hjk : j < k)
    (hS : hRow G i ^^^ hRow G j ^^^ hRow G k = S)
    (hleast : ∀ a b c, a < b → b < c → (a < i ∨ (a = i ∧ (b < j ∨ (b = j ∧ c < k)))) →
      hRow G a ^^^ hRow G b ^^^ hRow G c ≠ S) :
    firstMatch G S candidates3 = some [i, j, k] := by
  refine firstMatch_of_least candidates3_pairwise_lt (mem_candidates3.mpr ⟨i, j, k, hij, hjk, rfl⟩)
    (by simpa [BitVec.xor_assoc] using hS) fun Q hQ hlt => ?_
  obtain ⟨a, b, c, hab, hbc, rfl⟩ := mem_candidates3.mp hQ
  simpa [BitVec.xor_assoc] using hleast a b c hab hbc (by simpa [List.cons_lt_cons_iff] using hlt)

/-! ## The depths are entered in order (43_error_search.md R130) -/

section
variable {G : GenMatrix} {S : Row11} {P : ErrorPattern}

theorem searchPattern_of_depth1 (h1 : firstMatch G S candidates1 = some P) : searchPattern G S = some P := by
  simp [searchPattern, h1]

theorem searchPattern_of_depth2 (h1 : firstMatch G S candidates1 = none) (h2 : firstMatch G S candidates2 = some P) :
    searchPattern G S = some P := by
  simp [searchPattern, h1, h2]

theorem searchPattern_of_depth3 (h1 : firstMatch G S candidates1 = none) (h2 : firstMatch G S candidates2 = none)
    (h3 : firstMatch G S candidates3 = some P) : searchPattern G S = some P := by
  simp [searchPattern, h1, h2, h3]

end

/-! ## What `CORRECT` answers in each state of the search -/

/-- State 1 answers with the received word (43_error_search.md R131). -/
theorem exec_correct_of_syndrome_zero {s : State} {r : Word23} (hS : syndromeOf s.config.G r = 0#11) :
    exec (.correct r) s = .next { s with rsp := searchResponse r 0#2 false } := by
  have hw : correctWord s.config.G r = unchangedResult r := by simp [correctWord, hS]
  rw [exec_eq_respond, responseTo_correct, hw]
  rfl

/-- States 2 to 4 answer with the matched pattern flipped (43_error_search.md R130). -/
theorem exec_correct_of_match {s : State} {r : Word23} {P : ErrorPattern} (hS : syndromeOf s.config.G r ≠ 0#11)
    (hP : searchPattern s.config.G (syndromeOf s.config.G r) = some P) :
    exec (.correct r) s =
      .next { s with rsp := searchResponse (r ^^^ patternMask P) (BitVec.ofNat 2 P.length) false } := by
  have hw : correctWord s.config.G r = flippedResult r P := by simp [correctWord, hS, hP]
  rw [exec_eq_respond, responseTo_correct, hw, ← foldl_flipPosition]
  rfl

/-! ## Syndromes and codewords -/

theorem syndromeOf_xor (G : GenMatrix) (u v : Word23) : syndromeOf G (u ^^^ v) = syndromeOf G u ^^^ syndromeOf G v := by
  unfold syndromeOf
  rw [← xorReduce_map_xor]
  simp only [positionBit_xor, selectRow_xor]

theorem syndromeOf_positionMask (G : GenMatrix) (p : Position) : syndromeOf G (positionMask p) = hRow G p := by
  simp only [syndromeOf, positionBit_positionMask]
  rw [xorReduce_select_one (hRow G) p positions (List.nodup_finRange 23), if_pos (mem_positions p)]

/-- Rule R96 of 40_matrix_tables.md: the syndrome of a pattern's mask is the XOR of the pattern's rows. -/
theorem syndromeOf_patternMask (G : GenMatrix) (P : ErrorPattern) : syndromeOf G (patternMask P) = patternSyndrome G P := by
  induction P with
  | nil => simpa using syndromeOf_xor G 0#23 0#23
  | cons p P ih => rw [patternMask_cons, syndromeOf_xor, syndromeOf_positionMask, ih, patternSyndrome_cons]

/-- The 12 data positions, then the 11 parity positions (20_memory.md R40). -/
theorem positions_eq_append :
    positions = (List.finRange 12).map (Fin.castAdd 11) ++ (List.finRange 11).map (Fin.natAdd 12) := by decide

theorem positionBit_castAdd (r : Word23) (j : Fin 12) : positionBit r (Fin.castAdd 11 j) = dataBit (dataField r) j := by
  have hj := j.isLt
  simp [-BitVec.getLsbD_eq_getElem, positionBit, dataBit, dataField, show 11 - j.val < 12 by omega,
    show 11 + (11 - j.val) = 22 - j.val by omega]

theorem positionBit_natAdd (r : Word23) (i : Fin 11) : positionBit r (Fin.natAdd 12 i) = columnBit (parityField r) i := by
  have hi := i.isLt
  simp [-BitVec.getLsbD_eq_getElem, positionBit, columnBit, parityField, show 10 - i.val < 11 by omega,
    show 22 - (12 + i.val) = 10 - i.val by omega]

/-- An 11-bit value is the XOR of the unit vectors of its set columns. -/
theorem row_eq_xorReduce (row : Row11) :
    xorReduce ((List.finRange 11).map fun i => selectRow (columnBit row i) (unitRow i)) = row := by
  have hl : List.finRange 11 = [0, 1, 2, 3, 4, 5, 6, 7, 8, 9, 10] := by decide
  apply BitVec.eq_of_getLsbD_eq
  intro k hk
  rw [getLsbD_xorReduce, List.foldl_map, hl]
  simp only [getLsbD_selectRow, columnBit, unitRow]
  interval_cases k <;> simp

/-- Rule R122 of 42_syndrome.md: the syndrome compares the parity of the received data with the received parity. -/
theorem syndromeOf_eq (G : GenMatrix) (r : Word23) : syndromeOf G r = parity G (dataField r) ^^^ parityField r := by
  have hdata : ∀ j : Fin 12, hRow G (Fin.castAdd 11 j) = G[j] := fun j => hRow_of_lt G _ j.isLt
  rw [syndromeOf, positions_eq_append, List.map_append, xorReduce_append, List.map_map, List.map_map]
  simp only [Function.comp_def, positionBit_castAdd, hdata, positionBit_natAdd, hRow_natAdd, row_eq_xorReduce]
  rfl

theorem eq_encodeWord_of_syndromeOf_eq_zero {G : GenMatrix} {w : Word23} (h : syndromeOf G w = 0#11) :
    w = encodeWord G (dataField w) := by
  rw [syndromeOf_eq, BitVec.xor_eq_zero_iff] at h
  rw [encodeWord, h, joinFields_fields]

/-! ## A well-formed `G` gives each pattern its own syndrome -/

/-- With a well-formed `G` only the zero word has both a zero syndrome and a weight below 7. -/
theorem eq_zero_of_syndromeOf_eq_zero {G : GenMatrix} (hG : wfG G = true) {w : Word23} (hS : syndromeOf G w = 0#11)
    (hw : popcount w ≤ 6) : w = 0#23 := by
  have hcode := eq_encodeWord_of_syndromeOf_eq_zero hS
  by_cases hd : dataField w = 0#12
  · rw [hcode, hd, encodeWord_zero]
  · have hheavy := (wfG_iff G).mp hG (dataField w) hd
    rw [← hcode] at hheavy
    omega

/-- Two patterns of weight at most 3 with one syndrome have masks that differ by a codeword of weight at most 6, so they are equal
(40_matrix_tables.md R97). -/
theorem eq_of_patternSyndrome_eq {G : GenMatrix} (hG : wfG G = true) {P Q : ErrorPattern} (hP : isPattern P) (hQ : isPattern Q)
    (h : patternSyndrome G P = patternSyndrome G Q) : P = Q := by
  obtain ⟨hPlt, hPlen⟩ := hP
  obtain ⟨hQlt, hQlen⟩ := hQ
  have hS : syndromeOf G (patternMask P ^^^ patternMask Q) = 0#11 := by
    rw [syndromeOf_xor, syndromeOf_patternMask, syndromeOf_patternMask, h, BitVec.xor_self]
  have hweight : popcount (patternMask P ^^^ patternMask Q) ≤ 6 := by
    have hle := popcount_xor_le (patternMask P) (patternMask Q)
    rw [popcount_patternMask hPlt, popcount_patternMask hQlt] at hle
    omega
  exact patternMask_injective hPlt hQlt (BitVec.xor_eq_zero_iff.mp (eq_zero_of_syndromeOf_eq_zero hG hS hweight))

theorem hRow_injective {G : GenMatrix} (hG : wfG G = true) : Function.Injective (hRow G) := by
  intro p q h
  have hpattern : ∀ p : Position, isPattern [p] := fun p => ⟨List.pairwise_singleton _ p, by simp⟩
  simpa using eq_of_patternSyndrome_eq hG (hpattern p) (hpattern q) (by simpa using h)

/-! ## The statements -/

/-- Settles O21: state 1 answers with the received word, with nothing flipped. -/
theorem zeroSyndromeReturnsTheWord : Obligations.ZeroSyndromeReturnsTheWord :=
  fun _ _ => exec_correct_of_syndrome_zero

/-- Settles O22: depth 1 finds the least matching position, and the rows of `H` are distinct when `G` is well-formed. -/
theorem depthOneFlipsTheLeastMatch : Obligations.DepthOneFlipsTheLeastMatch := by
  refine fun s r p hS hp hleast => ⟨?_, fun hG q hq => hRow_injective hG (hq.trans hp.symm)⟩
  rw [exec_correct_of_match hS (searchPattern_of_depth1 (firstMatch_candidates1_eq_some hp hleast))]
  simp [searchResponse, correctedFlag, positionMask]

/-- Settles O23: depth 1 finds nothing, and depth 2 finds the first pair. -/
theorem depthTwoFlipsTheFirstPair : Obligations.DepthTwoFlipsTheFirstPair := by
  intro s r i j hS hnone1 hij hmatch hleast
  have hsearch := searchPattern_of_depth2 (firstMatch_candidates1_eq_none.mpr hnone1)
    (firstMatch_candidates2_eq_some hij hmatch hleast)
  rw [exec_correct_of_match hS hsearch]
  simp [searchResponse, correctedFlag, positionMask, BitVec.xor_assoc]

/-- Settles O24: depths 1 and 2 find nothing, and depth 3 finds the first triple. -/
theorem depthThreeFlipsTheFirstTriple : Obligations.DepthThreeFlipsTheFirstTriple := by
  intro s r i j k hS hnone1 hnone2 hij hjk hmatch hleast
  have hsearch := searchPattern_of_depth3 (firstMatch_candidates1_eq_none.mpr hnone1)
    (firstMatch_candidates2_eq_none.mpr hnone2) (firstMatch_candidates3_eq_some hij hjk hmatch hleast)
  rw [exec_correct_of_match hS hsearch]
  simp [searchResponse, correctedFlag, positionMask, BitVec.xor_assoc]

end Sys2Proof.Machine
end

section
/-! Proofs of the statements of 30_encoding.md on the request word and the response word: each word is one request, the decoder follows
the opcode table, the fields stand where the layouts put them. -/

namespace Sys2Proof

/-! ## The decoder, by opcode -/

@[simp] theorem decodeRequest_formatE (zero : Row11) (data : DataWord) :
    decodeRequest (joinRequest 0b00#2 (joinFormatE zero data)) = decodeFormatE zero data := by
  simp [decodeRequest]

@[simp] theorem decodeRequest_syndrome (received : Word23) : decodeRequest (joinRequest 0b01#2 received) = .syndrome received := by
  simp [decodeRequest]

@[simp] theorem decodeRequest_correct (received : Word23) : decodeRequest (joinRequest 0b10#2 received) = .correct received := by
  simp [decodeRequest]

@[simp] theorem decodeRequest_decode (received : Word23) : decodeRequest (joinRequest 0b11#2 received) = .decode received := by
  simp [decodeRequest]

@[simp] theorem decodeFormatE_zero (data : DataWord) : decodeFormatE 0#11 data = .encode data := rfl

theorem decodeFormatE_of_ne_zero {zero : Row11} (h : zero ≠ 0#11) (data : DataWord) :
    decodeFormatE zero data = .encodeInvalid zero data := if_neg h

/-- Both rows with `op` = 00 put `zero` and `data` back in their places (R63, R68). -/
theorem encodeRequest_decodeFormatE (zero : Row11) (data : DataWord) :
    encodeRequest (decodeFormatE zero data) = joinRequest 0b00#2 (joinFormatE zero data) := by
  by_cases h : zero = 0#11
  · rw [h]; rfl
  · rw [decodeFormatE_of_ne_zero h]; rfl

/-- Every word is written in one of the four opcodes (R62), in format E for `op` = 00 (R63). -/
theorem request_cases (w : ReqWord) :
    (∃ zero data, w = joinRequest 0b00#2 (joinFormatE zero data)) ∨ (∃ r, w = joinRequest 0b01#2 r) ∨
      (∃ r, w = joinRequest 0b10#2 r) ∨ ∃ r, w = joinRequest 0b11#2 r := by
  have hop : ∀ op : BitVec 2, op = 0b00#2 ∨ op = 0b01#2 ∨ op = 0b10#2 ∨ op = 0b11#2 := by decide
  rcases hop (reqOpField w) with h | h | h | h
  · exact .inl ⟨reqZeroField w, reqDataField w, by rw [← h, ← reqArgField_formatE, joinRequest_fields]⟩
  · exact .inr (.inl ⟨reqArgField w, by rw [← h, joinRequest_fields]⟩)
  · exact .inr (.inr (.inl ⟨reqArgField w, by rw [← h, joinRequest_fields]⟩))
  · exact .inr (.inr (.inr ⟨reqArgField w, by rw [← h, joinRequest_fields]⟩))

/-! ## Decoding and encoding -/

/-- Settles O1: the decoder reads back each row's opcode and operand; only for `ENCODE.invalid` does it need the well-formedness. -/
theorem decodeInvertsEncode : Obligations.DecodeInvertsEncode := by
  intro i hi
  cases i with
  | encode data => exact decodeRequest_formatE 0#11 data
  | syndrome received => exact decodeRequest_syndrome received
  | correct received => exact decodeRequest_correct received
  | decode received => exact decodeRequest_decode received
  | encodeInvalid zero data =>
    have hzero : zero ≠ 0#11 := by simpa [Instr.wellFormed] using hi
    exact (decodeRequest_formatE zero data).trans (decodeFormatE_of_ne_zero hzero data)

theorem decodeRequest_wellFormed (w : ReqWord) : (decodeRequest w).wellFormed = true := by
  rcases request_cases w with ⟨zero, data, rfl⟩ | ⟨r, rfl⟩ | ⟨r, rfl⟩ | ⟨r, rfl⟩
  · rw [decodeRequest_formatE]; exact decodeFormatE_wellFormed zero data
  · rw [decodeRequest_syndrome]; rfl
  · rw [decodeRequest_correct]; rfl
  · rw [decodeRequest_decode]; rfl

theorem encodeRequest_decodeRequest (w : ReqWord) : encodeRequest (decodeRequest w) = w := by
  rcases request_cases w with ⟨zero, data, rfl⟩ | ⟨r, rfl⟩ | ⟨r, rfl⟩ | ⟨r, rfl⟩
  · rw [decodeRequest_formatE, encodeRequest_decodeFormatE]
  · rw [decodeRequest_syndrome]; rfl
  · rw [decodeRequest_correct]; rfl
  · rw [decodeRequest_decode]; rfl

/-- Settles O2: decoding and encoding are inverse to each other both ways, so no second well-formed term has the same word. -/
theorem everyWordIsOneRequest : Obligations.EveryWordIsOneRequest := by
  refine fun w => ⟨decodeRequest_wellFormed w, encodeRequest_decodeRequest w, fun i hi hw => ?_⟩
  rw [← hw, decodeInvertsEncode i hi]

/-! ## The rows of the opcode table -/

/-- The mask of the format W rows keeps `op`. -/
theorem and_opMask (w : ReqWord) : w &&& 0x1800000#25 = joinRequest (reqOpField w) 0#23 := by
  have hmask : 0x1800000#25 = joinRequest (BitVec.allOnes 2) 0#23 := by decide
  conv_lhs => rw [← joinRequest_fields w, hmask]
  rw [joinRequest, joinRequest, BitVec.and_append, BitVec.and_allOnes, BitVec.and_zero, joinRequest]

/-- The mask of the ENCODE row keeps `op` and `zero`. -/
theorem and_encodeMask (w : ReqWord) :
    w &&& 0x1FFF000#25 = joinRequest (reqOpField w) (joinFormatE (reqZeroField w) 0#12) := by
  have hmask : 0x1FFF000#25 = joinRequest (BitVec.allOnes 2) (joinFormatE (BitVec.allOnes 11) 0#12) := by decide
  conv_lhs => rw [← joinRequest_fields w, reqArgField_formatE, hmask]
  rw [joinRequest, joinRequest, BitVec.and_append, BitVec.and_allOnes, joinFormatE, joinFormatE, BitVec.and_append,
    BitVec.and_allOnes, BitVec.and_zero, joinRequest, joinFormatE]

/-- A format W row matches on `op` alone. -/
theorem reqOpField_of_and_opMask {w : ReqWord} {op : BitVec 2} (h : w &&& 0x1800000#25 = joinRequest op 0#23) :
    reqOpField w = op := by
  rw [and_opMask] at h
  simpa using congrArg reqOpField h

/-- Settles O3: each row's mask keeps the fields that the decoder tests, `op` and for the two rows with `op` = 00 also `zero`. -/
theorem decoderFollowsTheTableRows : Obligations.DecoderFollowsTheTableRows := by
  intro w
  refine ⟨fun h => ?_, fun h => ?_, fun h => ?_, fun h => ?_, fun hencode h => ?_⟩
  · have hfields : joinRequest (reqOpField w) (joinFormatE (reqZeroField w) 0#12) =
        joinRequest 0b00#2 (joinFormatE 0#11 0#12) := (and_encodeMask w).symm.trans h
    have hop : reqOpField w = 0b00#2 := by simpa using congrArg reqOpField hfields
    have hzero : reqZeroField w = 0#11 := by simpa using congrArg reqZeroField hfields
    simp only [decodeRequest, hop, hzero, decodeFormatE_zero, if_true, reqDataField]
  · have hop : reqOpField w = 0b01#2 := reqOpField_of_and_opMask h
    simp [decodeRequest, hop, reqArgField]
  · have hop : reqOpField w = 0b10#2 := reqOpField_of_and_opMask h
    simp [decodeRequest, hop, reqArgField]
  · have hop : reqOpField w = 0b11#2 := reqOpField_of_and_opMask h
    simp [decodeRequest, hop, reqArgField]
  · have hop : reqOpField w = 0b00#2 := reqOpField_of_and_opMask h
    have hzero : reqZeroField w ≠ 0#11 := by
      intro hz
      rw [and_encodeMask, hop, hz] at hencode
      exact hencode rfl
    rw [decodeRequest, if_pos hop, decodeFormatE_of_ne_zero hzero, reqZeroField, reqDataField]

/-- Settles O4, by evaluation of the five words. -/
theorem writtenOutWordsDecode : Obligations.WrittenOutWordsDecode := by
  unfold Obligations.WrittenOutWordsDecode
  decide

/-- Settles O5: a number is refused exactly where it is no request word, and every request word decodes. -/
theorem onlyWiderNumbersAreNoRequest : Obligations.OnlyWiderNumbersAreNoRequest := by
  intro nbits w
  by_cases h : w % 2 ^ nbits < 2 ^ 25
  · rw [decodeTableWord, decodeNumber, requestOfNumber, if_pos h, if_pos h]; rfl
  · rw [decodeTableWord, decodeNumber, requestOfNumber, if_neg h, if_neg h]; rfl

/-! ## The response word -/

/-- Settles O6, from the bits of the response word. -/
theorem responseWordFields : Obligations.ResponseWordFields := by
  intro r
  refine ⟨?_, ?_, ?_, ?_, ?_⟩
  · rw [Machine.getLsbD_responseWord]; simp
  · rw [Machine.getLsbD_responseWord]; simp
  · rw [Machine.getLsbD_responseWord]; simp
  · apply BitVec.eq_of_getLsbD_eq
    intro k hk
    simp [-BitVec.getLsbD_eq_getElem, Machine.getLsbD_responseWord, hk, show 23 + k < 25 by omega]
  · apply BitVec.eq_of_getLsbD_eq
    intro k hk
    simp [-BitVec.getLsbD_eq_getElem, Machine.getLsbD_responseWord, hk]

end Sys2Proof
end

section
/-! Proofs of the statements about the step and the host (10_state.md, 20_memory.md, 60_exceptions.md, 70_reset_and_hazards.md): every
transaction answers with one function of `G` and the request, and writes nothing else. -/

namespace Sys2Proof.Machine

/-! ## An operation answers with `responseTo`, a transaction with that of the word on the ports -/

theorem exec_eq_next (i : Instr) (s : State) : exec i s = .next { s with rsp := responseTo s.config.G i } :=
  exec_eq_respond i s

theorem step_eq_next (s : State) : step s = .next { s with rsp := responseTo s.config.G (decodeRequest s.request) } :=
  exec_eq_next _ s

theorem step_present (s : State) (w : ReqWord) :
    step (s.present w) = .next { s.present w with rsp := responseTo s.config.G (decodeRequest w) } := by
  rw [step_eq_next, request_present, present_config]
  rfl

/-- Settles O7: joining the ports is all that stands between them and the decoder. -/
theorem stepRunsTheRequestOnThePorts : Obligations.StepRunsTheRequestOnThePorts := fun _ => rfl

/-- Settles O13: an operation is one response. -/
theorem operationsWriteTheResponseAlone : Obligations.OperationsWriteTheResponseAlone :=
  fun i s => ⟨_, exec_eq_next i s, rfl, rfl, rfl⟩

/-- Settles O17: the response of `raise InvalidWidth` has the bit set. -/
theorem tooWideEncodeRaisesInvalidWidth : Obligations.TooWideEncodeRaisesInvalidWidth :=
  fun s zero data => ⟨_, exec_eq_next (.encodeInvalid zero data) s, rfl⟩

/-- A number that decodes is the port word that it puts on the wires (30_encoding.md R60, R69). -/
theorem decodeRequest_portWord {nbits w : Nat} {i : Instr} (h : decodeTableWord nbits w = some i) :
    decodeRequest (portWord nbits w) = i := by
  rw [onlyWiderNumbersAreNoRequest nbits w] at h
  split at h
  · exact Option.some.inj h
  · cases h

/-- Settles O8: the presented word is what the step decodes. -/
theorem presentedWordIsRunNext : Obligations.PresentedWordIsRunNext := by
  intro s nbits w i h
  rw [withFetchWord_eq_present]
  refine ⟨?_, present_config _ _, present_rsp _ _⟩
  rw [step, request_present, decodeRequest_portWord h]

/-- Settles O9: the function is `responseTo` of the decoded word. -/
theorem responseIsFunctionOfRequestAndG : Obligations.ResponseIsFunctionOfRequestAndG :=
  ⟨fun G w => responseTo G (decodeRequest w), step_eq_next⟩

/-- Settles O52: the ports show `responseTo` of the word on them. -/
theorem responsePortsFollowTheRequest : Obligations.ResponsePortsFollowTheRequest :=
  ⟨fun G w => responseTo G (decodeRequest w), fun _ => rfl, rspPorts_present, fun c => rspPorts_present (State.resetWith c),
    step_eq_next⟩

/-! ## Runs -/

theorem transactions_cons {w : ReqWord} {ws : List ReqWord} {s t u : State} {rs : List Response}
    (hstep : step (s.present w) = .next t) (hrun : transactions ws t = .next (u, rs)) :
    transactions (w :: ws) s = .next (u, t.rsp :: rs) := by
  simp [transactions, hstep, hrun]

/-- Each request of a run gets the response of a block that has seen nothing but it. -/
theorem transactions_eq (ws : List ReqWord) (s : State) :
    ∃ u : State, transactions ws s = .next (u, ws.map fun w => responseTo s.config.G (decodeRequest w)) ∧
      u.config = s.config := by
  induction ws generalizing s with
  | nil => exact ⟨s, rfl, rfl⟩
  | cons w ws ih =>
    obtain ⟨u, hrun, hconfig⟩ := ih { s.present w with rsp := responseTo s.config.G (decodeRequest w) }
    exact ⟨u, transactions_cons (step_present s w) hrun, hconfig⟩

/-- Settles O10, by induction over the requests: a step leaves `G` as it was for the rest of the run. -/
theorem runsAnswerEachRequestAlone : Obligations.RunsAnswerEachRequestAlone :=
  ⟨fun G w => responseTo G (decodeRequest w), step_eq_next, transactions_eq⟩

/-- Settles O11: the answer depends on `G` alone, and the operation before has left `G` in place. -/
theorem noOperationAffectsTheNext : Obligations.NoOperationAffectsTheNext := by
  intro i j s t h
  refine ⟨_, exec_eq_next i s, ?_⟩
  rw [exec_eq_next i t, exec_keeps_config h]

/-- Settles O12: after a step the same request stands on the ports and the response is already its own. -/
theorem repeatingARequestChangesNothing : Obligations.RepeatingARequestChangesNothing := by
  intro s t h
  rw [step_eq_next_iff] at h
  subst h
  exact step_eq_next _

/-! ## Reset -/

/-- Settles O48: the request at reset is `ENCODE 0x000`, whose codeword is 0 for every `G`. -/
theorem resetShowsItsRequestsResponse : Obligations.ResetShowsItsRequestsResponse := by
  intro c
  have hreq : decodeRequest (State.resetWith c).request = .encode 0#12 := decodeRequest_formatE 0#11 0#12
  have hports : (State.resetWith c).rspPorts = plainResponse 0#23 := by
    rw [State.rspPorts, hreq, responseTo_encode, encodeWord_zero]
  refine ⟨hports, hports.symm, ?_⟩
  rw [step_eq_next_iff, hreq, responseTo_encode, encodeWord_zero]
  rfl

/-- Settles O49: presenting the request makes the two states equal but for the stored response, which the step writes. -/
theorem resetHasNoObservableEffect : Obligations.ResetHasNoObservableEffect :=
  fun s w => ⟨_, _, step_present s w, step_present (State.resetWith s.config) w, rfl⟩

end Sys2Proof.Machine
end

section
/-! Proofs of the statements of 40_matrix_tables.md, 41_encoder.md and 42_syndrome.md that hold for every `G`: the two products bit by
bit, their linearity, and the codewords as the words with a zero syndrome. -/

namespace Sys2Proof.Machine

/-! ## The products, bit by bit -/

/-- Parity bit by parity bit (41_encoder.md R110). -/
theorem getLsbD_parity (G : GenMatrix) (d : DataWord) (k : Nat) :
    (parity G d).getLsbD k = (List.finRange 12).foldl (fun acc j => acc ^^ (dataBit d j && (G[j]).getLsbD k)) false := by
  rw [parity, getLsbD_xorReduce, List.foldl_map]
  simp only [getLsbD_selectRow]

/-- Syndrome bit by syndrome bit (42_syndrome.md R120). -/
theorem getLsbD_syndromeOf (G : GenMatrix) (r : Word23) (k : Nat) :
    (syndromeOf G r).getLsbD k = positions.foldl (fun acc p => acc ^^ (positionBit r p && (hRow G p).getLsbD k)) false := by
  rw [syndromeOf, getLsbD_xorReduce, List.foldl_map]
  simp only [getLsbD_selectRow]

@[simp] theorem dataField_encodeWord (G : GenMatrix) (d : DataWord) : dataField (encodeWord G d) = d :=
  dataField_joinFields d _

@[simp] theorem parityField_encodeWord (G : GenMatrix) (d : DataWord) : parityField (encodeWord G d) = parity G d :=
  parityField_joinFields d _

/-- Settles O15: the word is the operand joined with its parity. -/
theorem encodeGivesTheCodeword : Obligations.EncodeGivesTheCodeword := by
  refine fun s d => ⟨exec_eq_next (.encode d) s, dataField_encodeWord _ d, fun i => ?_⟩
  rw [encodeWord, getLsbD_joinFields, if_pos (by omega), getLsbD_parity]
  rfl

/-- Settles O19: the value is the syndrome, whose bits are the parity checks. -/
theorem syndromeGivesTheParityChecks : Obligations.SyndromeGivesTheParityChecks :=
  fun s r => ⟨exec_eq_next (.syndrome r) s, fun i => getLsbD_syndromeOf _ r (10 - i.val)⟩

/-! ## The codewords are the words with a zero syndrome -/

@[simp] theorem syndromeOf_zero (G : GenMatrix) : syndromeOf G 0#23 = 0#11 := syndromeOf_patternMask G []

@[simp] theorem syndromeOf_encodeWord (G : GenMatrix) (d : DataWord) : syndromeOf G (encodeWord G d) = 0#11 := by
  rw [syndromeOf_eq, dataField_encodeWord, parityField_encodeWord, BitVec.xor_self]

/-- The syndrome sees the error alone (40_matrix_tables.md R96). -/
theorem syndromeOf_encodeWord_xor (G : GenMatrix) (d : DataWord) (e : Word23) :
    syndromeOf G (encodeWord G d ^^^ e) = syndromeOf G e := by
  rw [syndromeOf_xor, syndromeOf_encodeWord, BitVec.zero_xor]

theorem syndromeOf_eq_zero_iff {G : GenMatrix} {w : Word23} : syndromeOf G w = 0#11 ↔ w = encodeWord G (dataField w) :=
  ⟨eq_encodeWord_of_syndromeOf_eq_zero, fun h => by rw [h, syndromeOf_encodeWord]⟩

/-- Settles O31, from the linearity of the two products. -/
theorem productsAreLinear : Obligations.ProductsAreLinear :=
  fun G => ⟨encodeWord_xor G, syndromeOf_xor G, encodeWord_zero G, syndromeOf_zero G,
    fun P _ => syndromeOf_patternMask G P, syndromeOf_encodeWord_xor G⟩

/-- Settles O32: the parity part of the received data's codeword is the parity of the received data. -/
theorem syndromeComparesParities : Obligations.SyndromeComparesParities := by
  intro G r
  have hparity : (encodeWord G (r.extractLsb' 11 12)).extractLsb' 0 11 = parity G (dataField r) := parityField_encodeWord G _
  rw [hparity, syndromeOf_eq, BitVec.xor_comm]
  rfl

/-- Settles O33: a word with a zero syndrome is the codeword of its own data part. -/
theorem zeroSyndromeExactlyOnCodewords : Obligations.ZeroSyndromeExactlyOnCodewords := by
  refine fun G w => ⟨syndromeOf_eq_zero_iff, fun h => ⟨_, eq_encodeWord_of_syndromeOf_eq_zero h⟩, ?_⟩
  rintro ⟨d, rfl⟩
  exact syndromeOf_encodeWord G d

/-! ## The laws of `ENCODE` -/

theorem card_bitVec (n : Nat) : Fintype.card (BitVec n) = 2 ^ n := by
  rw [← FinEnum.card_eq_fintypeCard, FinEnum.card_bitVec]

/-- Two data words encode to words at least 7 apart when `G` is well formed (40_matrix_tables.md R94). -/
theorem seven_le_popcount_encodeWord_xor {G : GenMatrix} (hG : wfG G = true) {a b : DataWord} (h : a ≠ b) :
    7 ≤ popcount (encodeWord G a ^^^ encodeWord G b) :=
  (wellFormedMatrixMeansDistanceSeven G).2.mp hG a b ((encodeWord_injective G).ne h)

/-- Settles O34: laws (a) to (d) are the lemmas above, (e) follows from injectivity and (f) is `WF_G` as a distance. -/
theorem encoderLaws : Obligations.EncoderLaws := by
  refine fun G => ⟨dataField_encodeWord G, fun a b h => encodeWord_injective G h, encodeWord_xor G, syndromeOf_encodeWord G, ?_,
    fun hG a b h => seven_le_popcount_encodeWord_xor hG h⟩
  rw [Finset.card_image_of_injective _ (encodeWord_injective G), Finset.card_univ, card_bitVec]
  norm_num

/-! ## `ENCODE` reads out the rows of `G` -/

/-- The two parts of a word do not overlap. -/
theorem joinFields_eq_or (d : DataWord) (row : Row11) : joinFields d row = joinFields d 0#11 ||| row.setWidth 23 := by
  apply BitVec.eq_of_getLsbD_eq
  intro k hk
  rw [BitVec.getLsbD_or, getLsbD_joinFields, getLsbD_joinFields, BitVec.getLsbD_setWidth]
  by_cases h : k < 11
  · simp [-BitVec.getLsbD_eq_getElem, h, hk]
  · simp [-BitVec.getLsbD_eq_getElem, h, BitVec.getLsbD_of_ge row k (by omega)]

/-- A single data bit stands at its data position (00_scope.md R9, R10). -/
theorem joinFields_dataUnit : ∀ j : Fin 12, joinFields (1#12 <<< (11 - j.val)) 0#11 = positionMask (Fin.castAdd 11 j) := by
  decide

@[simp] theorem hRow_castAdd (G : GenMatrix) (j : Fin 12) : hRow G (Fin.castAdd 11 j) = G[j] := hRow_of_lt G _ j.isLt

/-- A word without data bits is its own parity check. -/
theorem syndromeOf_joinFields_zero (G : GenMatrix) (row : Row11) : syndromeOf G (joinFields 0#12 row) = row := by
  have hzero : parity G 0#12 = 0#11 := by simpa using parity_xor G 0#12 0#12
  rw [syndromeOf_eq, dataField_joinFields, parityField_joinFields, hzero, BitVec.zero_xor]

/-- The word with data bit j and row j of `G` has a zero syndrome, since row j of `H` is row j of `G`. -/
theorem encodeWord_dataUnit (G : GenMatrix) (j : Fin 12) : encodeWord G (1#12 <<< (11 - j.val)) = generatorRow G j := by
  have hsplit : generatorRow G j = positionMask (Fin.castAdd 11 j) ^^^ joinFields 0#12 G[j] := by
    rw [← joinFields_dataUnit, ← joinFields_xor, BitVec.xor_zero, BitVec.zero_xor]
    rfl
  have hsyndrome : syndromeOf G (generatorRow G j) = 0#11 := by
    rw [hsplit, syndromeOf_xor, syndromeOf_positionMask, hRow_castAdd, syndromeOf_joinFields_zero, BitVec.xor_self]
  rw [eq_encodeWord_of_syndromeOf_eq_zero hsyndrome, generatorRow, dataField_joinFields]

/-- Settles O16: the codeword of a single data bit is that bit joined with its row. -/
theorem encodeReadsOutRows : Obligations.EncodeReadsOutRows := by
  intro s j
  have hword : encodeWord s.config.G (1#12 <<< (11 - j.val)) = (1#23 <<< (22 - j.val)) ||| (s.config.G[j]).setWidth 23 := by
    rw [encodeWord_dataUnit, generatorRow, joinFields_eq_or, joinFields_dataUnit]
    rfl
  refine ⟨?_, ?_⟩
  · rw [exec_eq_next, responseTo_encode, encodeWord_zero]
    rfl
  · rw [exec_eq_next, responseTo_encode, hword]
    rfl

end Sys2Proof.Machine
end

section
/-! Proofs of the statements of 43_error_search.md and 44_decoder.md that hold for every `G`: the candidates, the search as one pass over
them, what `CORRECT` and `DECODE` answer, and the lookup table. -/

namespace Sys2Proof.Machine

/-! ## The candidates -/

/-- Settles O37: membership by the shape of a list of length 1, 2 or 3, the order proved before, the numbers by evaluation. -/
theorem candidatesAreAllPatternsInOrder : Obligations.CandidatesAreAllPatternsInOrder := by
  refine ⟨fun P => ?_, fun P => ?_, fun P => ?_, candidates1_pairwise_lt, candidates2_pairwise_lt, candidates3_pairwise_lt,
    by decide, by decide +kernel, by decide +kernel⟩
  · rw [mem_candidates1, List.length_eq_one_iff]
    constructor
    · rintro ⟨p, rfl⟩
      exact ⟨List.pairwise_singleton _ p, p, rfl⟩
    · exact fun h => h.2
  · rw [mem_candidates2, List.length_eq_two]
    constructor
    · rintro ⟨i, j, hij, rfl⟩
      exact ⟨by simpa using hij, i, j, rfl⟩
    · rintro ⟨hP, i, j, rfl⟩
      exact ⟨i, j, by simpa using hP, rfl⟩
  · rw [mem_candidates3, List.length_eq_three]
    constructor
    · rintro ⟨i, j, k, hij, hjk, rfl⟩
      exact ⟨by simp [hij, hjk, hij.trans hjk], i, j, k, rfl⟩
    · rintro ⟨hP, i, j, k, rfl⟩
      have hlt : (i < j ∧ i < k) ∧ j < k := by simpa using hP
      exact ⟨i, j, k, hlt.1.1, hlt.2, rfl⟩

/-! ## The search is one pass over all candidates -/

theorem searchPattern_eq_find? (G : GenMatrix) (S : Row11) :
    searchPattern G S = (candidates1 ++ candidates2 ++ candidates3).find? fun P => patternSyndrome G P == S := by
  rw [List.find?_append, List.find?_append]
  change _ = ((firstMatch G S candidates1).or (firstMatch G S candidates2)).or (firstMatch G S candidates3)
  rcases searchPattern_cases G S with ⟨P, h1, h⟩ | ⟨h1, P, h2, h⟩ | ⟨h1, h2, P, h3, h⟩ | ⟨h1, h2, h3, h⟩
  · simp [h, h1]
  · simp [h, h1, h2]
  · simp [h, h1, h2, h3]
  · simp [h, h1, h2, h3]

/-- The search fails exactly when no pattern of weight 1 to 3 has the syndrome (43_error_search.md R136). -/
theorem searchPattern_eq_none_iff {G : GenMatrix} {S : Row11} :
    searchPattern G S = none ↔ ∀ P, isPattern P → P ≠ [] → patternSyndrome G P ≠ S := by
  have hmem : ∀ P, P ∈ candidates1 ++ candidates2 ++ candidates3 ↔ isPattern P ∧ P ≠ [] := by
    intro P
    rw [← mem_allPatterns, allPatterns, List.mem_cons]
    refine ⟨fun h => ⟨.inr h, ?_⟩, fun ⟨h, hne⟩ => h.resolve_left hne⟩
    rintro rfl
    simp [mem_candidates1, mem_candidates2, mem_candidates3] at h
  simp only [searchPattern_eq_find?, List.find?_eq_none, hmem, beq_iff_eq, and_imp, ne_eq]

/-! The order of a pattern's positions does not matter for its syndrome, so the conditions of 60_exceptions.md R162 on distinct positions
are those on ascending ones. -/

theorem xorReduce_perm {n : Nat} {l l' : List (BitVec n)} (h : l.Perm l') : xorReduce l = xorReduce l' := by
  induction h with
  | nil => rfl
  | cons v _ ih => rw [xorReduce_cons, xorReduce_cons, ih]
  | swap u v l =>
    simp only [xorReduce_cons]
    ac_rfl
  | trans _ _ ih1 ih2 => exact ih1.trans ih2

theorem exists_ascending_perm {P : ErrorPattern} (h : P.Nodup) : ∃ Q : ErrorPattern, Q.Pairwise (· < ·) ∧ Q.Perm P := by
  have hQ : (positions.filter fun q => decide (q ∈ P)).Pairwise (· < ·) := positions_pairwise_lt.filter _
  refine ⟨_, hQ, (List.perm_ext_iff_of_nodup (hQ.imp ne_of_lt) h).mpr fun q => ?_⟩
  simp [mem_positions]

/-- A search for which no ascending position, pair or triple matches fails. -/
theorem searchPattern_eq_none_of_ascending {G : GenMatrix} {S : Row11} (h1 : ∀ a, hRow G a ≠ S)
    (h2 : ∀ a b, a < b → hRow G a ^^^ hRow G b ≠ S)
    (h3 : ∀ a b c, a < b → b < c → hRow G a ^^^ hRow G b ^^^ hRow G c ≠ S) : searchPattern G S = none := by
  refine searchPattern_eq_none_iff.mpr fun P hP hne => ?_
  have hcand : P ∈ allPatterns := mem_allPatterns.mpr hP
  simp only [allPatterns, List.mem_cons, List.mem_append, mem_candidates1, mem_candidates2, mem_candidates3] at hcand
  rcases hcand with rfl | (⟨a, rfl⟩ | ⟨a, b, hab, rfl⟩) | ⟨a, b, c, hab, hbc, rfl⟩
  · exact absurd rfl hne
  · simpa using h1 a
  · simpa using h2 a b hab
  · simpa [BitVec.xor_assoc] using h3 a b c hab hbc

/-- A failed search has met no one, two or three distinct rows of `H` that XOR to the syndrome, in whatever order. -/
theorem searchPattern_eq_none_iff_distinct {G : GenMatrix} {S : Row11} :
    searchPattern G S = none ↔ (∀ a, hRow G a ≠ S) ∧ (∀ a b, a ≠ b → hRow G a ^^^ hRow G b ≠ S) ∧
      ∀ a b c, a ≠ b → a ≠ c → b ≠ c → hRow G a ^^^ hRow G b ^^^ hRow G c ≠ S := by
  constructor
  · intro h
    have hdistinct : ∀ P : ErrorPattern, P.Nodup → P.length ≤ 3 → P ≠ [] → patternSyndrome G P ≠ S := by
      intro P hP hlen hne
      obtain ⟨Q, hQ, hperm⟩ := exists_ascending_perm hP
      rw [patternSyndrome, ← xorReduce_perm (hperm.map (hRow G))]
      refine searchPattern_eq_none_iff.mp h Q ⟨hQ, hperm.length_eq ▸ hlen⟩ ?_
      rintro rfl
      exact hne hperm.nil_eq.symm
    refine ⟨fun a => ?_, fun a b hab => ?_, fun a b c hab hac hbc => ?_⟩
    · simpa using hdistinct [a] (by simp) (by simp) (by simp)
    · simpa using hdistinct [a, b] (by simp [hab]) (by simp) (by simp)
    · simpa [BitVec.xor_assoc] using hdistinct [a, b, c] (by simp [hab, hac, hbc]) (by simp) (by simp)
  · rintro ⟨h1, h2, h3⟩
    exact searchPattern_eq_none_of_ascending h1 (fun a b hab => h2 a b hab.ne) fun a b c hab hbc =>
      h3 a b c hab.ne (hab.trans hbc).ne hbc.ne

/-! ## What `CORRECT` answers -/

/-- State 5 answers with the received word, reported (43_error_search.md R136). -/
theorem exec_correct_of_no_match {s : State} {r : Word23} (hS : syndromeOf s.config.G r ≠ 0#11)
    (hnone : searchPattern s.config.G (syndromeOf s.config.G r) = none) :
    exec (.correct r) s = .next { s with rsp := searchResponse r 0#2 true } := by
  have hw : correctWord s.config.G r = uncorrectableResult r := by simp [correctWord, hS, hnone]
  rw [exec_eq_next, responseTo_correct, hw]
  rfl

/-- Settles O25: the three conditions are those under which no depth finds a match. -/
theorem failedSearchReportsUncorrectable : Obligations.FailedSearchReportsUncorrectable :=
  fun _ _ hS h1 h2 h3 => exec_correct_of_no_match hS (searchPattern_eq_none_of_ascending h1 h2 h3)

theorem correctedFlag_ofNat {n : Nat} (h : n ≤ 3) : correctedFlag (BitVec.ofNat 2 n) = decide (1 ≤ n) := by
  rw [correctedFlag, BitVec.toNat_ofNat, Nat.mod_eq_of_lt (by omega)]

/-- `CORRECT` either flips a pattern of weight at most 3, the empty one for a zero syndrome, and reaches a codeword, or reports that the
word is none. -/
theorem correctWord_flips_or_reports (G : GenMatrix) (r : Word23) :
    (∃ P, isPattern P ∧ patternSyndrome G P = syndromeOf G r ∧ correctWord G r = flippedResult r P) ∨
      (syndromeOf G r ≠ 0#11 ∧ searchPattern G (syndromeOf G r) = none ∧ correctWord G r = uncorrectableResult r) := by
  rcases correctWord_cases G r with ⟨hS, hw⟩ | ⟨-, P, hP, hw⟩ | ⟨hS, hnone, hw⟩
  · exact .inl ⟨[], ⟨List.Pairwise.nil, by simp⟩, hS.symm, hw⟩
  · obtain ⟨hPS, hlt, -, hlen⟩ := searchPattern_some hP
    exact .inl ⟨P, ⟨hlt, hlen⟩, hPS, hw⟩
  · exact .inr ⟨hS, hnone, hw⟩

/-- Flipping a pattern with the word's own syndrome leaves a zero syndrome (40_matrix_tables.md R96). -/
theorem syndromeOf_xor_patternMask {G : GenMatrix} {r : Word23} {P : ErrorPattern} (h : patternSyndrome G P = syndromeOf G r) :
    syndromeOf G (r ^^^ patternMask P) = 0#11 := by
  rw [syndromeOf_xor, syndromeOf_patternMask, h, BitVec.xor_self]

theorem flippedResult_value (r : Word23) (P : ErrorPattern) : (flippedResult r P).value = r ^^^ patternMask P :=
  foldl_flipPosition P r

/-- The response of `CORRECT` when it flips a pattern. -/
theorem exec_correct_of_flippedResult {s : State} {r : Word23} {P : ErrorPattern} (hP : P.length ≤ 3)
    (h : correctWord s.config.G r = flippedResult r P) :
    exec (.correct r) s = .next { s with rsp :=
      { invalidWidth := false, uncorrectable := false, corrected := decide (1 ≤ P.length),
        flipped := BitVec.ofNat 2 P.length, value := r ^^^ patternMask P } } := by
  rw [exec_eq_next, responseTo_correct, h, flippedResult_value, ← correctedFlag_ofNat hP]
  rfl

/-- Settles O26: the pattern's weight is the distance, and its mask takes the word to a codeword. -/
theorem correctGivesACodewordOrReports : Obligations.CorrectGivesACodewordOrReports := by
  intro s r
  rcases correctWord_flips_or_reports s.config.G r with ⟨P, ⟨hlt, hlen⟩, hPS, hw⟩ | ⟨hS, hnone, -⟩
  · have hzero := syndromeOf_xor_patternMask hPS
    refine ⟨r ^^^ patternMask P, P.length, false, exec_correct_of_flippedResult hlen hw, hlen, ?_,
      fun _ => ⟨hzero, eq_encodeWord_of_syndromeOf_eq_zero hzero⟩, by simp⟩
    rw [xor_xor_cancel_comm, popcount_patternMask hlt]
  · exact ⟨r, 0, true, exec_correct_of_no_match hS hnone, by simp, by simp, by simp, fun _ => ⟨rfl, rfl, hS⟩⟩

/-! ## `DECODE` -/

/-- Settles O27: `DECODE` shares `CORRECT`'s search; in states 1 and 5 that search leaves the word as it is. -/
theorem decodeTakesTheLeadingBits : Obligations.DecodeTakesTheLeadingBits := by
  refine fun s r => ⟨_, exec_eq_next (.correct r) s, exec_eq_next (.decode r) s, fun h => ?_⟩
  have hvalue : (correctWord s.config.G r).value = r := by
    rcases correctWord_cases s.config.G r with ⟨-, hw⟩ | ⟨hS, P, -, hw⟩ | ⟨-, -, hw⟩
    · rw [hw]; rfl
    · have hflag : (correctWord s.config.G r).uncorrectable = true := h.resolve_left hS
      rw [hw] at hflag
      cases hflag
    · rw [hw]; rfl
  exact congrArg dataField hvalue

/-- Settles O35: a codeword has a zero syndrome, so the search stops in state 1. -/
theorem decodeOfEncodeIsTheData : Obligations.DecodeOfEncodeIsTheData := by
  refine fun s d => ⟨_, exec_eq_next (.encode d) s, ?_⟩
  have hw : correctWord s.config.G (encodeWord s.config.G d) = unchangedResult (encodeWord s.config.G d) := by simp [correctWord]
  have hdata : dataField (unchangedResult (encodeWord s.config.G d)).value = d := dataField_encodeWord s.config.G d
  rw [exec_eq_next, responseTo_encode, plainResponse, responseTo_decode, hw, hdata]
  rfl

/-- Without an `Uncorrectable` outcome `CORRECT` gives the codeword of its leading bits. -/
theorem encodeWord_correctWord {G : GenMatrix} {r : Word23} (h : (correctWord G r).uncorrectable = false) :
    encodeWord G (dataField (correctWord G r).value) = (correctWord G r).value := by
  rcases correctWord_flips_or_reports G r with ⟨P, -, hPS, hw⟩ | ⟨-, -, hw⟩
  · rw [hw, flippedResult_value]
    exact (eq_encodeWord_of_syndromeOf_eq_zero (syndromeOf_xor_patternMask hPS)).symm
  · rw [hw] at h
    cases h

theorem extractLsb'_zext23 (d : DataWord) : (zext23 d).extractLsb' 0 12 = d := by
  apply BitVec.eq_of_getLsbD_eq
  intro k hk
  simp [-BitVec.getLsbD_eq_getElem, zext23, hk, show k < 23 by omega]

/-- Settles O36: `DECODE`'s data are the leading bits of `CORRECT`'s word, which is their codeword. -/
theorem reencodingGivesTheCorrectedWord : Obligations.ReencodingGivesTheCorrectedWord := by
  refine fun s r => ⟨_, _, _, exec_eq_next (.decode r) s, exec_eq_next (.correct r) _, exec_eq_next _ _, fun h => ?_⟩
  have hdata : ((responseTo s.config.G (.decode r)).value).extractLsb' 0 12 = dataField (correctWord s.config.G r).value :=
    extractLsb'_zext23 _
  change encodeWord s.config.G (((responseTo s.config.G (.decode r)).value).extractLsb' 0 12) = (correctWord s.config.G r).value
  rw [hdata, encodeWord_correctWord h]

/-! ## The lookup table -/

/-- Inserting a pattern answers its syndrome where the table did not yet. -/
theorem lookup_insertFirst (G : GenMatrix) (S : Row11) (table : List (Row11 × ErrorPattern)) (P : ErrorPattern) :
    (insertFirst G table P).lookup S = (table.lookup S).or (if patternSyndrome G P == S then some P else none) := by
  have hsome : (table.lookup (patternSyndrome G P)).isSome = table.any fun entry => entry.1 == patternSyndrome G P := by
    rw [Bool.eq_iff_iff, List.lookup_isSome_iff, List.any_eq_true]
    simp only [beq_iff_eq]
    simp only [eq_comm]
  by_cases hany : (table.any fun entry => entry.1 == patternSyndrome G P) = true
  · rw [insertFirst, if_pos hany]
    by_cases hS : patternSyndrome G P = S
    · rw [← hsome, hS] at hany
      obtain ⟨Q, hQ⟩ := Option.isSome_iff_exists.mp hany
      rw [hQ, Option.some_or]
    · simp [hS]
  · rw [insertFirst, if_neg hany, List.lookup_append, List.lookup_cons, List.lookup_nil, BEq.comm]
    cases patternSyndrome G P == S <;> rfl

/-- The table answers with the first inserted pattern that has the syndrome (43_error_search.md R141). -/
theorem lookup_foldl_insertFirst (G : GenMatrix) (S : Row11) (c : List ErrorPattern) (table : List (Row11 × ErrorPattern)) :
    (c.foldl (insertFirst G) table).lookup S = (table.lookup S).or (c.find? fun P => patternSyndrome G P == S) := by
  induction c generalizing table with
  | nil => simp
  | cons P c ih =>
    rw [List.foldl_cons, ih, lookup_insertFirst, Option.or_assoc, List.find?_cons]
    cases patternSyndrome G P == S <;> rfl

theorem tablePattern_eq_searchPattern (G : GenMatrix) (S : Row11) : tablePattern G S = searchPattern G S := by
  rw [tablePattern, syndromeTable, lookup_foldl_insertFirst, searchPattern_eq_find?]
  rfl

/-- Settles O38: the table holds the search's answer, and `CORRECT` flips it or reports that there is none. -/
theorem lookupTableEqualsSearch : Obligations.LookupTableEqualsSearch := by
  intro s r hS
  rw [tablePattern_eq_searchPattern]
  cases hP : searchPattern s.config.G (syndromeOf s.config.G r) with
  | some P =>
    obtain ⟨-, -, -, hlen⟩ := searchPattern_some hP
    have hw : correctWord s.config.G r = flippedResult r P := by simp [correctWord, hS, hP]
    exact exec_correct_of_flippedResult hlen hw
  | none => exact exec_correct_of_no_match hS hP

end Sys2Proof.Machine
end

section
/-! Proofs of the statements of 40_matrix_tables.md, 43_error_search.md and 44_decoder.md about a well-formed `G`: each syndrome has its
one pattern of weight at most 3, so each word is a codeword with such a pattern flipped, and `CORRECT` flips it back. -/

namespace Sys2Proof.Machine

/-! ## Perfection: as many patterns as syndromes -/

theorem allPatterns_nodup : allPatterns.Nodup := by
  obtain ⟨hmem1, hmem2, hmem3, hlt1, hlt2, hlt3, -⟩ := candidatesAreAllPatternsInOrder
  have hlen1 : ∀ P ∈ candidates1, P.length = 1 := fun P hP => ((hmem1 P).mp hP).2
  have hlen2 : ∀ P ∈ candidates2, P.length = 2 := fun P hP => ((hmem2 P).mp hP).2
  have hlen3 : ∀ P ∈ candidates3, P.length = 3 := fun P hP => ((hmem3 P).mp hP).2
  refine List.nodup_cons.mpr ⟨fun h => ?_, ?_⟩
  · simp [mem_candidates1, mem_candidates2, mem_candidates3] at h
  refine (List.Nodup.append (hlt1.imp ne_of_lt) (hlt2.imp ne_of_lt) fun P h1 h2 => ?_).append (hlt3.imp ne_of_lt)
    fun P h12 h3 => ?_
  · have := hlen1 P h1
    have := hlen2 P h2
    omega
  · have := hlen3 P h3
    rcases List.mem_append.mp h12 with h | h
    · have := hlen1 P h
      omega
    · have := hlen2 P h
      omega

/-- The distance from a codeword is the weight of the pattern flipped in it. -/
theorem popcount_xor_xor_patternMask (c : Word23) {P : ErrorPattern} (hP : isPattern P) :
    popcount (c ^^^ (c ^^^ patternMask P)) = P.length := by
  rw [xor_cancel_left, popcount_patternMask hP.1]

section
variable {G : GenMatrix} (hG : wfG G = true)
include hG

/-- Only the empty pattern has a zero syndrome. -/
theorem eq_nil_of_patternSyndrome_eq_zero {P : ErrorPattern} (hP : isPattern P) (h : patternSyndrome G P = 0#11) : P = [] :=
  eq_of_patternSyndrome_eq hG hP ⟨List.Pairwise.nil, by simp⟩ h

/-- The 2048 patterns have distinct syndromes, and there are 2048 syndromes (40_matrix_tables.md R98). -/
theorem exists_pattern_of_syndrome (S : Row11) : ∃ P, isPattern P ∧ patternSyndrome G P = S := by
  have hnodup : (allPatterns.map (patternSyndrome G)).Nodup := allPatterns_nodup.map_on fun P hP Q hQ h =>
    eq_of_patternSyndrome_eq hG (mem_allPatterns.mp hP) (mem_allPatterns.mp hQ) h
  have hall : (allPatterns.map (patternSyndrome G)).toFinset = Finset.univ := Finset.eq_univ_of_card _ (by
    rw [List.toFinset_card_of_nodup hnodup, List.length_map, allPatterns_length, card_bitVec]
    norm_num)
  obtain ⟨P, hP, hS⟩ := List.mem_map.mp (List.mem_toFinset.mp (hall ▸ Finset.mem_univ S))
  exact ⟨P, mem_allPatterns.mp hP, hS⟩

/-- Every word is a codeword with a pattern of weight at most 3 flipped. -/
theorem exists_codeword_pattern (r : Word23) : ∃ d P, isPattern P ∧ r = encodeWord G d ^^^ patternMask P := by
  obtain ⟨P, hP, hS⟩ := exists_pattern_of_syndrome hG (syndromeOf G r)
  refine ⟨dataField (r ^^^ patternMask P), P, hP, ?_⟩
  rw [← eq_encodeWord_of_syndromeOf_eq_zero (syndromeOf_xor_patternMask hS), xor_cancel_right]

theorem searchPattern_patternSyndrome {P : ErrorPattern} (hP : isPattern P) (hne : P ≠ []) :
    searchPattern G (patternSyndrome G P) = some P := by
  cases hs : searchPattern G (patternSyndrome G P) with
  | none => exact absurd rfl (searchPattern_eq_none_iff.mp hs P hP hne)
  | some Q =>
    obtain ⟨hQS, hlt, -, hlen⟩ := searchPattern_some hs
    rw [eq_of_patternSyndrome_eq hG ⟨hlt, hlen⟩ hP hQS]

/-- The search matches the very pattern that was flipped (43_error_search.md R138). -/
theorem correctWord_encodeWord_xor (d : DataWord) {P : ErrorPattern} (hP : isPattern P) :
    correctWord G (encodeWord G d ^^^ patternMask P) = flippedResult (encodeWord G d ^^^ patternMask P) P := by
  have hS : syndromeOf G (encodeWord G d ^^^ patternMask P) = patternSyndrome G P := by
    rw [syndromeOf_encodeWord_xor, syndromeOf_patternMask]
  rw [correctWord, hS]
  by_cases hne : P = []
  · subst hne
    rfl
  · have hzero : patternSyndrome G P ≠ 0#11 := fun h => hne (eq_nil_of_patternSyndrome_eq_zero hG hP h)
    rw [if_neg hzero, searchPattern_patternSyndrome hG hP hne]

theorem correctWord_not_uncorrectable (r : Word23) : (correctWord G r).uncorrectable = false := by
  obtain ⟨d, P, hP, rfl⟩ := exists_codeword_pattern hG r
  rw [correctWord_encodeWord_xor hG d hP]
  rfl

/-- Codewords within distance 3 of one word are equal, being less than 7 apart (40_matrix_tables.md R94). -/
theorem eq_of_encodeWord_near {a b : DataWord} {r : Word23} (ha : popcount (encodeWord G a ^^^ r) ≤ 3)
    (hb : popcount (encodeWord G b ^^^ r) ≤ 3) : a = b := by
  by_contra hne
  have hfar := seven_le_popcount_encodeWord_xor hG hne
  have hsplit : encodeWord G a ^^^ encodeWord G b = (encodeWord G a ^^^ r) ^^^ (encodeWord G b ^^^ r) := by
    rw [BitVec.xor_comm (encodeWord G b), BitVec.xor_assoc, xor_cancel_left]
  have hle := popcount_xor_le (encodeWord G a ^^^ r) (encodeWord G b ^^^ r)
  rw [← hsplit] at hle
  omega

/-- The codeword within distance 3 exists and is the only one (40_matrix_tables.md R98). -/
theorem existsUnique_codeword_near (r : Word23) :
    ∃! c : Word23, (∃ d : DataWord, c = encodeWord G d) ∧ popcount (c ^^^ r) ≤ 3 := by
  obtain ⟨d, P, hP, rfl⟩ := exists_codeword_pattern hG r
  have hnear := (popcount_xor_xor_patternMask (encodeWord G d) hP).trans_le hP.2
  refine ⟨encodeWord G d, ⟨⟨d, rfl⟩, hnear⟩, ?_⟩
  rintro _ ⟨⟨d', rfl⟩, hnear'⟩
  rw [eq_of_encodeWord_near hG hnear' hnear]

end

/-- Settles O41: patterns with one syndrome are equal. -/
theorem patternsHaveDistinctSyndromes : Obligations.PatternsHaveDistinctSyndromes :=
  fun _ hG _ _ hP hQ h => eq_of_patternSyndrome_eq hG hP hQ h

/-! ## What perfection counts -/

theorem length_filter_eq_one {α : Type} {l : List α} {p : α → Bool} (hl : l.Nodup) (h : ∃! a, a ∈ l ∧ p a = true) :
    (l.filter p).length = 1 := by
  obtain ⟨a, ha, huniq⟩ := h
  have hperm : (l.filter p).Perm [a] := (List.perm_ext_iff_of_nodup (hl.filter p) (List.nodup_singleton a)).mpr fun b => by
    rw [List.mem_filter, List.mem_singleton]
    exact ⟨huniq b, fun hb => hb ▸ ha⟩
  exact hperm.length_eq

theorem mem_codewords {G : GenMatrix} {c : Word23} : c ∈ codewords G ↔ ∃ d : DataWord, c = encodeWord G d := by
  rw [codewords, List.mem_map]
  constructor
  · rintro ⟨n, -, rfl⟩
    exact ⟨_, rfl⟩
  · rintro ⟨d, rfl⟩
    exact ⟨d.toNat, List.mem_range.mpr d.isLt, by rw [BitVec.ofNat_toNat, BitVec.setWidth_eq]⟩

theorem codewords_nodup (G : GenMatrix) : (codewords G).Nodup := by
  refine List.nodup_range.map_on fun m hm n hn h => ?_
  have hmod := congrArg BitVec.toNat (encodeWord_injective G h)
  rwa [BitVec.toNat_ofNat, BitVec.toNat_ofNat, Nat.mod_eq_of_lt (List.mem_range.mp hm),
    Nat.mod_eq_of_lt (List.mem_range.mp hn)] at hmod

section
variable {G : GenMatrix} (hG : wfG G = true)
include hG

theorem existsUnique_pattern (S : Row11) : ∃! P : ErrorPattern, isPattern P ∧ patternSyndrome G P = S := by
  obtain ⟨P, hP, rfl⟩ := exists_pattern_of_syndrome hG S
  exact ⟨P, ⟨hP, rfl⟩, fun Q ⟨hQ, hQS⟩ => eq_of_patternSyndrome_eq hG hQ hP hQS⟩

theorem perfectCode_of_wfG : perfectCode G = true := by
  refine List.all_eq_true.mpr fun n _ => beq_iff_eq.mpr (length_filter_eq_one allPatterns_nodup ?_)
  simpa only [mem_allPatterns, beq_iff_eq] using existsUnique_pattern hG (BitVec.ofNat 11 n)

theorem codewordsNear_length (r : Word23) : (codewordsNear G r).length = 1 := by
  refine length_filter_eq_one (codewords_nodup G) ?_
  simpa only [mem_codewords, decide_eq_true_eq] using existsUnique_codeword_near hG r

/-- The pattern of a nonzero syndrome is not the empty one. -/
theorem existsUnique_nonempty_pattern {S : Row11} (hS : S ≠ 0#11) :
    ∃! P : ErrorPattern, isPattern P ∧ 1 ≤ P.length ∧ patternSyndrome G P = S := by
  obtain ⟨P, ⟨hP, hPS⟩, huniq⟩ := existsUnique_pattern hG S
  refine ⟨P, ⟨hP, List.length_pos_iff.mpr ?_, hPS⟩, fun Q ⟨hQ, _, hQS⟩ => huniq Q ⟨hQ, hQS⟩⟩
  rintro rfl
  exact hS hPS.symm

theorem exists_searchPattern {S : Row11} (hS : S ≠ 0#11) : ∃ P : ErrorPattern, searchPattern G S = some P := by
  obtain ⟨P, ⟨hP, hlen, rfl⟩, -⟩ := existsUnique_nonempty_pattern hG hS
  exact ⟨P, searchPattern_patternSyndrome hG hP (List.length_pos_iff.mp hlen)⟩

end

/-- Settles O42: 2048 patterns with distinct syndromes meet each of the 2048 syndromes once. -/
theorem codeIsPerfect : Obligations.CodeIsPerfect :=
  ⟨fun _ => mem_allPatterns, allPatterns_nodup, allPatterns_length, fun _ hG =>
    ⟨perfectCode_of_wfG hG, existsUnique_pattern hG, fun _ hS => existsUnique_nonempty_pattern hG hS,
      existsUnique_codeword_near hG, codewordsNear_length hG, fun _ hS => exists_searchPattern hG hS,
      correctWord_not_uncorrectable hG⟩⟩

/-! ## The guarantee, and what happens beyond it -/

/-- `CORRECT` undoes a pattern of weight at most 3 (43_error_search.md R138). -/
theorem exec_correct_encodeWord_xor {s : State} (hG : wfG s.config.G = true) (d : DataWord) {P : ErrorPattern} (hP : isPattern P) :
    exec (.correct (encodeWord s.config.G d ^^^ patternMask P)) s = .next { s with rsp :=
      { invalidWidth := false, uncorrectable := false, corrected := decide (1 ≤ P.length),
        flipped := BitVec.ofNat 2 P.length, value := encodeWord s.config.G d } } := by
  rw [exec_correct_of_flippedResult hP.2 (correctWord_encodeWord_xor hG d hP), xor_cancel_right]

/-- Settles O43: the search matches the flipped pattern. -/
theorem correctionGuarantee : Obligations.CorrectionGuarantee := by
  refine fun s d P hG hP => ⟨exec_correct_encodeWord_xor hG d hP, ?_⟩
  rw [correctWord_encodeWord_xor hG d hP]
  rfl

/-- Settles O44: the received word is a codeword with a pattern flipped, and its distance from that codeword is the pattern's weight. -/
theorem correctReturnsTheNearestCodeword : Obligations.CorrectReturnsTheNearestCodeword := by
  intro s r hG
  obtain ⟨d, P, hP, rfl⟩ := exists_codeword_pattern hG r
  have hdist := popcount_xor_xor_patternMask (encodeWord s.config.G d) hP
  refine ⟨encodeWord s.config.G d, P.length, exec_correct_encodeWord_xor hG d hP, ⟨d, rfl⟩, hdist, hP.2, fun d' hnear => ?_⟩
  rw [eq_of_encodeWord_near hG hnear (hdist.trans_le hP.2)]

/-- An error mask of weight at most 3 is the mask of a pattern. -/
theorem exists_isPattern_mask {e : Word23} (he : popcount e ≤ 3) :
    ∃ P, isPattern P ∧ patternMask P = e ∧ popcount e = P.length := by
  obtain ⟨P, hlt, rfl⟩ := exists_pattern e
  rw [popcount_patternMask hlt] at he
  exact ⟨P, ⟨hlt, he⟩, rfl, popcount_patternMask hlt⟩

/-- Settles O45: `DECODE` takes the leading bits of the codeword that `CORRECT` gives back. -/
theorem decodeCorrectsUpToThreeErrors : Obligations.DecodeCorrectsUpToThreeErrors := by
  intro s d e hG he
  obtain ⟨P, hP, rfl, hlen⟩ := exists_isPattern_mask he
  have hvalue : (flippedResult (encodeWord s.config.G d ^^^ patternMask P) P).value = encodeWord s.config.G d := by
    rw [flippedResult_value, xor_cancel_right]
  rw [exec_eq_next, responseTo_decode, correctWord_encodeWord_xor hG d hP, hvalue, dataField_encodeWord, hlen,
    ← correctedFlag_ofNat hP.2]
  rfl

/-- Each position set in both words is lost twice in their XOR. -/
theorem popcount_xor_add {n : Nat} (u v : BitVec n) : popcount (u ^^^ v) + 2 * popcount (u &&& v) = popcount u + popcount v := by
  have general : ∀ l : List (Fin n),
      l.countP (fun k => (u ^^^ v).getLsbD k.val) + 2 * l.countP (fun k => (u &&& v).getLsbD k.val) =
        l.countP (fun k => u.getLsbD k.val) + l.countP (fun k => v.getLsbD k.val) := by
    intro l
    induction l with
    | nil => rfl
    | cons k l ih =>
      simp only [List.countP_cons, BitVec.getLsbD_xor, BitVec.getLsbD_and] at ih ⊢
      cases u.getLsbD k.val <;> cases v.getLsbD k.val <;> simp [-BitVec.getLsbD_eq_getElem] <;> omega
  exact general _

/-- Words that share no position keep theirs in their XOR. -/
theorem xor_and_eq_left {n : Nat} {u v : BitVec n} (h : u &&& v = 0#n) : (u ^^^ v) &&& u = u := by
  apply BitVec.eq_of_getLsbD_eq
  intro k _
  have hk : (u.getLsbD k && v.getLsbD k) = false := by rw [← BitVec.getLsbD_and, h, BitVec.getLsbD_zero]
  rw [BitVec.getLsbD_and, BitVec.getLsbD_xor]
  cases hu : u.getLsbD k
  · exact Bool.and_false _
  · simpa [-BitVec.getLsbD_eq_getElem, hu] using hk

/-- Settles O46: the received word is another codeword with a pattern flipped; four errors and at most three flips bridge a distance of
at least 7, so they are four and three and share no position. -/
theorem moreThanThreeErrorsMiscorrect : Obligations.MoreThanThreeErrorsMiscorrect := by
  intro s d e hG he
  obtain ⟨d', P, hP, hr⟩ := exists_codeword_pattern hG (encodeWord s.config.G d ^^^ e)
  have hdiff : encodeWord s.config.G d ^^^ encodeWord s.config.G d' = e ^^^ patternMask P := by
    rw [← BitVec.xor_eq_zero_iff] at hr ⊢
    rw [← hr]
    ac_rfl
  have hlen := popcount_patternMask hP.1
  have hne : d' ≠ d := by
    rintro rfl
    rw [BitVec.xor_self, eq_comm, BitVec.xor_eq_zero_iff] at hdiff
    rw [hdiff, hlen] at he
    exact absurd hP.2 (by omega)
  refine ⟨d', P.length, hr ▸ exec_correct_encodeWord_xor hG d' hP, hne, hP.2, ?_, fun hfour => ?_⟩
  · rintro ⟨d'', rfl⟩
    have hsyndrome := congrArg (syndromeOf s.config.G) hr
    rw [syndromeOf_encodeWord_xor, syndromeOf_encodeWord, syndromeOf_encodeWord_xor, syndromeOf_patternMask] at hsyndrome
    rw [eq_nil_of_patternSyndrome_eq_zero hG hP hsyndrome.symm, List.length_nil]
  · have hfar := seven_le_popcount_encodeWord_xor hG hne.symm
    have hcount := popcount_xor_add e (patternMask P)
    have hle := hP.2
    rw [hdiff] at hfar ⊢
    have hdisjoint : e &&& patternMask P = 0#23 := (popcount_eq_zero_iff _).mp (by omega)
    exact ⟨by omega, by omega, xor_and_eq_left hdisjoint⟩

end Sys2Proof.Machine
end

section
/-! Proofs of the statements of 40_matrix_tables.md about the rows of a well-formed `G`, and of those about the reference matrix. -/

namespace Sys2Proof.Machine

/-! ## Weights of rows -/

/-- A word without data bits has the weight of its parity part. -/
theorem popcount_joinFields_zero (row : Row11) : popcount (joinFields 0#12 row) = popcount row := by
  have hsplit : List.finRange 23 = (List.finRange 11).map (Fin.castAdd 12) ++ (List.finRange 12).map (Fin.natAdd 11) := by decide
  have hdata : ∀ j : Fin 12, (joinFields 0#12 row).getLsbD (Fin.natAdd 11 j).val = false := fun j => by
    rw [getLsbD_joinFields, if_neg (by simp), BitVec.getLsbD_zero]
  have hparity : ∀ i : Fin 11, (joinFields 0#12 row).getLsbD (Fin.castAdd 12 i).val = row.getLsbD i.val := fun i => by
    rw [getLsbD_joinFields, Fin.val_castAdd, if_pos i.isLt]
  rw [popcount, hsplit, List.countP_append, List.countP_map, List.countP_map]
  simp only [Function.comp_def, hdata, hparity, List.countP_false]
  rfl

theorem popcount_patternMask_le (P : ErrorPattern) : popcount (patternMask P) ≤ P.length := by
  induction P with
  | nil => simp
  | cons p P ih =>
    have hle := popcount_xor_le (positionMask p) (patternMask P)
    rw [popcount_positionMask] at hle
    rw [patternMask_cons, List.length_cons]
    omega

theorem positionBit_patternMask_of_notMem {P : ErrorPattern} {q : Position} (h : q ∉ P) :
    positionBit (patternMask P) q = false := by
  induction P with
  | nil => simp [positionBit]
  | cons p P ih =>
    obtain ⟨hp, hP⟩ := not_or.mp (List.mem_cons.not.mp h)
    rw [patternMask_cons, positionBit_xor, positionBit_positionMask, ih hP, decide_eq_false (Ne.symm hp)]
    rfl

/-- The data positions J, with the XOR of their rows of `G` as parity. -/
def rowsWord (G : GenMatrix) (J : List (Fin 12)) : Word23 :=
  patternMask (J.map (Fin.castAdd 11)) ^^^ joinFields 0#12 (xorReduce (J.map fun j => G[j]))

theorem syndromeOf_rowsWord (G : GenMatrix) (J : List (Fin 12)) : syndromeOf G (rowsWord G J) = 0#11 := by
  have hrows : patternSyndrome G (J.map (Fin.castAdd 11)) = xorReduce (J.map fun j => G[j]) := by
    rw [patternSyndrome, List.map_map]
    simp only [Function.comp_def, hRow_castAdd]
  rw [rowsWord, syndromeOf_xor, syndromeOf_patternMask, syndromeOf_joinFields_zero, hrows, BitVec.xor_self]

theorem popcount_rowsWord_le (G : GenMatrix) (J : List (Fin 12)) :
    popcount (rowsWord G J) ≤ J.length + popcount (xorReduce (J.map fun j => G[j])) := by
  have hmask := popcount_patternMask_le (J.map (Fin.castAdd 11))
  rw [List.length_map] at hmask
  have hle := popcount_xor_le (patternMask (J.map (Fin.castAdd 11))) (joinFields 0#12 (xorReduce (J.map fun j => G[j])))
  rw [popcount_joinFields_zero] at hle
  exact hle.trans (Nat.add_le_add_right hmask _)

/-- Distinct data positions are all set in their word. -/
theorem rowsWord_ne_zero (G : GenMatrix) {j : Fin 12} {J : List (Fin 12)} (h : (j :: J).Nodup) : rowsWord G (j :: J) ≠ 0#23 := by
  intro hzero
  have hfresh : Fin.castAdd 11 j ∉ J.map (Fin.castAdd 11) := by
    rw [List.mem_map_of_injective (Fin.castAdd_injective 12 11)]
    exact (List.nodup_cons.mp h).1
  have hbit : positionBit (rowsWord G (j :: J)) (Fin.castAdd 11 j) = true := by
    rw [rowsWord, positionBit_xor, List.map_cons, patternMask_cons, positionBit_xor, positionBit_positionMask,
      positionBit_patternMask_of_notMem hfresh, positionBit_castAdd, dataField_joinFields]
    simp [dataBit]
  rw [hzero] at hbit
  simp [positionBit] at hbit

/-- The XOR of n distinct rows of a well-formed `G` has weight at least 7 - n: with its n data bits it is a nonzero codeword
(40_matrix_tables.md R103). -/
theorem popcount_xor_rows {G : GenMatrix} (hG : wfG G = true) {J : List (Fin 12)} (hJ : J.Nodup) (hne : 1 ≤ J.length) :
    7 - J.length ≤ popcount (xorReduce (J.map fun j => G[j])) := by
  obtain ⟨j, J, rfl⟩ := List.exists_cons_of_length_pos hne
  have hheavy : ¬popcount (rowsWord G (j :: J)) ≤ 6 := fun hle =>
    rowsWord_ne_zero G hJ (eq_zero_of_syndromeOf_eq_zero hG (syndromeOf_rowsWord G (j :: J)) hle)
  have hle := popcount_rowsWord_le G (j :: J)
  omega

theorem popcount_unitRow : ∀ i : Fin 11, popcount (unitRow i) = 1 := by decide

/-- A row of a well-formed `G` has six set bits or more, so no three unit vectors make it. -/
theorem six_le_popcount_row {G : GenMatrix} (hG : wfG G = true) (j : Fin 12) : 6 ≤ popcount G[j] := by
  simpa using popcount_xor_rows hG (List.nodup_singleton j) (by simp)

theorem hRow_ne_zero {G : GenMatrix} (hG : wfG G = true) (p : Position) : hRow G p ≠ 0#11 := fun h =>
  List.cons_ne_nil p [] (eq_nil_of_patternSyndrome_eq_zero hG ⟨List.pairwise_singleton _ p, by simp⟩ (by simpa using h))

/-- Settles O40: the bound on the XOR of rows, unit vectors as too light to be a row, and `H`'s rows as patterns of one position. -/
theorem rowWeights : Obligations.RowWeights := by
  refine fun G hG => ⟨fun J hJ hne _ => popcount_xor_rows hG hJ hne, fun j a b c => ?_, hRow_ne_zero hG,
    fun p q h => hRow_injective hG h⟩
  have hrow := six_le_popcount_row hG j
  have ha := popcount_unitRow a
  have hb := popcount_unitRow b
  have hc := popcount_unitRow c
  have hab := popcount_xor_le (unitRow a) (unitRow b)
  have habc := popcount_xor_le (unitRow a ^^^ unitRow b) (unitRow c)
  refine ⟨fun h => ?_, fun h => ?_, fun h => ?_⟩ <;> rw [h] at hrow <;> omega

/-! ## The reference matrix -/

/-- Settles O47, by evaluation of the twelve remainders. -/
theorem referenceRowsAreCyclic : Obligations.ReferenceRowsAreCyclic := by
  unfold Obligations.ReferenceRowsAreCyclic
  decide +kernel

end Sys2Proof.Machine
end

section
/-! Proofs of the statements about a whole transaction (20_memory.md, 30_encoding.md, 44_decoder.md, 60_exceptions.md) that read off its
operation: what each of the five rows of the opcode table answers, its outcome bits, and the invariant of a well-formed block. -/

namespace Sys2Proof.Machine

/-- All that a transaction can answer, by the row of the opcode table that its ports match (30_encoding.md R62, R68). -/
theorem step_rsp_cases {s t : State} (h : step s = .next t) :
    (s.reqOp = 0b00#2 ∧ s.reqArg.extractLsb' 12 11 = 0#11 ∧
      t.rsp = plainResponse (encodeWord s.config.G (s.reqArg.extractLsb' 0 12))) ∨
    (s.reqOp = 0b00#2 ∧ s.reqArg.extractLsb' 12 11 ≠ 0#11 ∧ ∃ arg, t.rsp = invalidWidthResponse s.config.G arg) ∨
    (s.reqOp = 0b01#2 ∧ t.rsp = plainResponse (zext23 (syndromeOf s.config.G s.reqArg))) ∨
    (s.reqOp = 0b10#2 ∧
      t.rsp = searchResultResponse (correctWord s.config.G s.reqArg).value (correctWord s.config.G s.reqArg)) ∨
    (s.reqOp = 0b11#2 ∧
      t.rsp = searchResultResponse (zext23 (dataField (correctWord s.config.G s.reqArg).value))
        (correctWord s.config.G s.reqArg)) := by
  have hop : ∀ op : BitVec 2, op = 0b00#2 ∨ op = 0b01#2 ∨ op = 0b10#2 ∨ op = 0b11#2 := by decide
  rw [step_eq_next_iff, decodeRequest_request] at h
  rcases hop s.reqOp with h0 | h1 | h2 | h3
  · by_cases hzero : s.reqArg.extractLsb' 12 11 = 0#11
    · exact .inl ⟨h0, hzero, by simp [h, h0, hzero]⟩
    · exact .inr (.inl ⟨h0, hzero, _, by rw [h, if_pos h0, decodeFormatE_of_ne_zero hzero, responseTo_encodeInvalid]⟩)
  · exact .inr (.inr (.inl ⟨h1, by simp [h, h1]⟩))
  · exact .inr (.inr (.inr (.inl ⟨h2, by simp [h, h2, searchResultResponse]⟩)))
  · exact .inr (.inr (.inr (.inr ⟨h3, by simp [h, h3, searchResultResponse]⟩)))

/-! ## `InvalidWidth` -/

/-- Settles O18: of the five rows only `ENCODE.invalid` sets the bit. -/
theorem invalidWidthExactlyOnTooWideEncode : Obligations.InvalidWidthExactlyOnTooWideEncode := by
  intro s t h
  rcases step_rsp_cases h with ⟨-, hzero, ht⟩ | ⟨hop, hzero, arg, ht⟩ | ⟨hop, ht⟩ | ⟨hop, ht⟩ | ⟨hop, ht⟩
  · simp [ht, hzero, plainResponse]
  · simp [ht, hop, hzero, invalidWidthResponse]
  · simp [ht, hop, plainResponse]
  · simp [ht, hop, searchResultResponse, searchResponse]
  · simp [ht, hop, searchResultResponse, searchResponse]

/-- A response whose fields are defined is that of an ENCODE or a SYNDROME, which flips and reports nothing, or of one of the two
operations that search. -/
theorem usable_rsp_cases {s t : State} (h : step s = .next t) (hw : t.rsp.invalidWidth = false) :
    ((s.reqOp = 0b00#2 ∨ s.reqOp = 0b01#2) ∧ ∃ value, t.rsp = plainResponse value) ∨
    (s.reqOp = 0b10#2 ∧
      t.rsp = searchResultResponse (correctWord s.config.G s.reqArg).value (correctWord s.config.G s.reqArg)) ∨
    (s.reqOp = 0b11#2 ∧
      t.rsp = searchResultResponse (zext23 (dataField (correctWord s.config.G s.reqArg).value))
        (correctWord s.config.G s.reqArg)) := by
  rcases step_rsp_cases h with ⟨hop, -, ht⟩ | ⟨-, -, arg, ht⟩ | ⟨hop, ht⟩ | hcorrect | hdecode
  · exact .inl ⟨.inl hop, _, ht⟩
  · rw [ht] at hw
    cases hw
  · exact .inl ⟨.inr hop, _, ht⟩
  · exact .inr (.inl hcorrect)
  · exact .inr (.inr hdecode)

/-! ## `Uncorrectable` and `corrected` -/

theorem correctWord_uncorrectable_iff {G : GenMatrix} {r : Word23} :
    (correctWord G r).uncorrectable = true ↔ syndromeOf G r ≠ 0#11 ∧ searchPattern G (syndromeOf G r) = none := by
  rcases correctWord_cases G r with ⟨hS, hw⟩ | ⟨-, P, hP, hw⟩ | ⟨hS, hnone, hw⟩
  · simp [hw, hS, unchangedResult]
  · simp [hw, hP, flippedResult]
  · simp [hw, hS, hnone, uncorrectableResult]

theorem correctWord_of_uncorrectable {G : GenMatrix} {r : Word23} (h : (correctWord G r).uncorrectable = true) :
    correctWord G r = uncorrectableResult r := by
  rcases correctWord_flips_or_reports G r with ⟨P, -, -, hw⟩ | ⟨-, -, hw⟩
  · rw [hw] at h
    cases h
  · exact hw

theorem wfG_eq_false_of_uncorrectable {G : GenMatrix} {r : Word23} (h : (correctWord G r).uncorrectable = true) :
    wfG G = false := by
  rw [Bool.eq_false_iff]
  intro hG
  rw [correctWord_not_uncorrectable hG r] at h
  cases h

/-- Settles O28: the outcome is the search's, which fails exactly when no one, two or three distinct rows match. -/
theorem uncorrectableExactlyWhenNoPattern : Obligations.UncorrectableExactlyWhenNoPattern := by
  intro s t h hw
  rw [← searchPattern_eq_none_iff_distinct, ← correctWord_uncorrectable_iff]
  rcases usable_rsp_cases h hw with ⟨hop, value, ht⟩ | ⟨hop, ht⟩ | ⟨hop, ht⟩
  · rcases hop with hop | hop <;> simp [ht, hop, plainResponse]
  · refine ⟨by simp [ht, hop, searchResultResponse, searchResponse], fun hu => ?_⟩
    have hu : (correctWord s.config.G s.reqArg).uncorrectable = true := by rwa [ht] at hu
    rw [ht, correctWord_of_uncorrectable hu]
    exact ⟨rfl, rfl, fun _ => rfl, fun h3 => absurd (hop.symm.trans h3) (by decide), wfG_eq_false_of_uncorrectable hu⟩
  · refine ⟨by simp [ht, hop, searchResultResponse, searchResponse], fun hu => ?_⟩
    have hu : (correctWord s.config.G s.reqArg).uncorrectable = true := by rwa [ht] at hu
    rw [ht, correctWord_of_uncorrectable hu]
    exact ⟨rfl, rfl, fun h2 => absurd (hop.symm.trans h2) (by decide), fun _ => rfl, wfG_eq_false_of_uncorrectable hu⟩

/-- A search's flags agree: `corrected` says that a bit was flipped, and a failed search has flipped none (44_decoder.md R151). -/
theorem searchResultResponse_flags (G : GenMatrix) (r value : Word23) :
    ((searchResultResponse value (correctWord G r)).corrected = true ↔
      1 ≤ (searchResultResponse value (correctWord G r)).flipped.toNat) ∧
    ((searchResultResponse value (correctWord G r)).uncorrectable = true →
      (searchResultResponse value (correctWord G r)).flipped = 0#2) := by
  refine ⟨decide_eq_true_iff, fun hu => ?_⟩
  rw [correctWord_of_uncorrectable hu]
  rfl

/-- Settles O29: ENCODE and SYNDROME flip nothing, and the two others report their search. -/
theorem correctedSaysABitWasFlipped : Obligations.CorrectedSaysABitWasFlipped := by
  intro s t h hw
  rcases usable_rsp_cases h hw with ⟨-, value, ht⟩ | ⟨-, ht⟩ | ⟨-, ht⟩
  · simp [ht, plainResponse]
  · rw [ht]; exact searchResultResponse_flags _ _ _
  · rw [ht]; exact searchResultResponse_flags _ _ _

/-! ## Narrow results -/

/-- A zero-extended value has no bit above its width (20_memory.md R42). -/
theorem extractLsb'_zext23_eq_zero {n : Nat} (v : BitVec n) (len : Nat) : (zext23 v).extractLsb' n len = 0#len := by
  apply BitVec.eq_of_getLsbD_eq
  intro k hk
  rw [BitVec.getLsbD_extractLsb', zext23, BitVec.getLsbD_setWidth, BitVec.getLsbD_of_ge v (n + k) (by omega)]
  simp

/-- Settles O30: both results are zero-extended. -/
theorem narrowResultsAreZeroExtended : Obligations.NarrowResultsAreZeroExtended := by
  intro s t h
  rcases step_rsp_cases h with ⟨hop, -, -⟩ | ⟨hop, -, -⟩ | ⟨hop, ht⟩ | ⟨hop, -⟩ | ⟨hop, ht⟩
  · simp [hop]
  · simp [hop]
  · rw [hop, ht]
    exact ⟨fun _ => extractLsb'_zext23_eq_zero _ 12, by simp⟩
  · simp [hop]
  · rw [hop, ht]
    exact ⟨by simp, fun _ => extractLsb'_zext23_eq_zero _ 11⟩

/-! ## The invariant of a well-formed block -/

theorem inv_iff {s : State} : s.inv = true ↔ wfG s.config.G = true ∧ s.rsp.consistent = true := Bool.and_eq_true_iff

theorem correctedFlag_eq : ∀ flipped : BitVec 2, correctedFlag flipped = (flipped != 0#2) := by decide

theorem plainResponse_consistent (value : Word23) : (plainResponse value).consistent = true := rfl

/-- With a well-formed `G` a search never fails (43_error_search.md R139). -/
theorem searchResultResponse_consistent {G : GenMatrix} (hG : wfG G = true) (r value : Word23) :
    (searchResultResponse value (correctWord G r)).consistent = true := by
  simp [Response.consistent, searchResultResponse, searchResponse, correctWord_not_uncorrectable hG, correctedFlag_eq]

theorem responseTo_consistent {G : GenMatrix} (hG : wfG G = true) (i : Instr) : (responseTo G i).consistent = true := by
  cases i with
  | encode data => exact plainResponse_consistent _
  | syndrome received => exact plainResponse_consistent _
  | correct received => exact searchResultResponse_consistent hG received _
  | decode received => exact searchResultResponse_consistent hG received _
  | encodeInvalid zero data => rfl

/-- Settles O50: the step keeps `G`, and whatever it answers is consistent because the code is perfect. -/
theorem stepKeepsTheBlockWellFormed : Obligations.StepKeepsTheBlockWellFormed := by
  intro s t hs h
  obtain ⟨hG, -⟩ := inv_iff.mp hs
  rw [step_eq_next_iff] at h
  rw [h, inv_iff]
  exact ⟨hG, responseTo_consistent hG _⟩

/-- Settles O51: `G_REF` is well formed, and the response at reset flips and reports nothing. -/
theorem resetBlockIsWellFormed : Obligations.ResetBlockIsWellFormed :=
  inv_iff.mpr ⟨gRef_wellFormed, plainResponse_consistent 0#23⟩

end Sys2Proof.Machine
end
